-- ==== Sys2Proof/Word.lean ====
section
/-! DEFINITION. The word types of the block: what the spec treats as bits, each at its own width. -/

namespace Sys2Proof

/-- A decoded byte, a character of the line, an 8-bit register (00_scope.md R4 `SYM_BITS`, R5). -/
abbrev Byte := BitVec 8

/-- A 16-bit field: `OFFSET`, `F0`, `F1` (10_state.md R24, R25). -/
abbrev Half := BitVec 16

/-- A 32-bit address, `ADDR32` (10_state.md R27). -/
abbrev Address32 := BitVec 32

/-- The input beat word, `last ∥ hexerr ∥ data` (30_encoding.md R60, `BEAT_BITS` of R4). -/
abbrev BeatWord := BitVec 10

/-- The 32-bit header `BUF[0] ∥ BUF[1] ∥ BUF[2] ∥ BUF[3]` (30_encoding.md R69). -/
abbrev HeaderWord := BitVec 32

/-- The byte counter `CNT` (10_state.md R12, `CNT_BITS` of R4). -/
abbrev Count := BitVec 9

/-- The `STATUS` register (10_state.md R20). -/
abbrev StatusCode := BitVec 3

end Sys2Proof
end

