-- ==== Sys2Proof/Config.lean ====
section
/-! DEFINITION. The parameters of 00_scope.md R4, all constants, and the one free value of the model. -/

namespace Sys2Proof

/-- `MARKER`, the value the first character of a line must have (R4).
PRESUMED by the spec itself: 0x3A is the ASCII code of `:` (93_implementation_defined.md G1; log 10). Unsafe. -/
def Config.marker : Byte := 0x3A

/-- `HDR_BYTES`: length 1, offset 2, type 1 (R4). -/
def Config.hdrBytes : Nat := 4

/-- `CK_BYTES` (R4). -/
def Config.ckBytes : Nat := 1

/-- `MAX_PAYLOAD` (R4). -/
def Config.maxPayload : Nat := 255

/-- `MAX_FRAME`, the size of the frame space (R4, 20_memory.md R40). -/
def Config.maxFrame : Nat := 260

/-- `MIN_FRAME`, the smallest frame with a header and a checksum (R4). -/
def Config.minFrame : Nat := 5

/-- FREE VALUE. The byte a read of `PAYLOAD[index]` outside its window returns
(10_state.md R27, 93_implementation_defined.md U4 "any value"). It has no body: nothing can be proved of it.
It is applied to the whole state in which the read is made (log 5). -/
opaque Config.unspecifiedByte {σ : Type} (state : σ) (index : Nat) : Byte

end Sys2Proof
end

