-- ==== Sys2Proof/Machine/State.lean ====
section
/-! DEFINITION. The state of the block (10_state.md R10), the reasons a step can stop, and the state after reset. -/

namespace Sys2Proof.Machine

/-- `PHASE` (10_state.md R11): `IDLE` = 0, `BODY` = 1. -/
inductive Phase where
  | idle
  | body
deriving DecidableEq, Repr

/-- What arrives at the block (70_reset_and_hazards.md R201): a `RESET` (R190) or a beat (30_encoding.md R60). -/
inductive FeedEvent where
  | reset
  | beat (word : BeatWord)
deriving DecidableEq, Repr

/-- The frame buffer `BUF`: its written cells as address and byte, addresses strictly rising (log 3). -/
abbrev Memory := List Host.Cell

/-- Why a step stops. The block has no fault of its own (60_exceptions.md R171); each constructor names an access
to which the spec gives no meaning, and no state with the invariant of R29 raises one (log 3, log 9). -/
inductive Fault where
  /-- Raised by a store at a frame address at or above 260, which does not exist (20_memory.md R40, R43). Safe. -/
  | noSuchFrameAddress
  /-- Raised by a read of `BUF[i]` with `i >= CNT`, which is not defined (R42). Safe. -/
  | readBeyondFrame
  /-- Raised by a read below `CNT` of a cell nothing has written, whose value is unspecified (R31). Safe. -/
  | readOfUnwrittenCell
deriving DecidableEq, Repr

/-- Why an instruction has no meaning. No arm of `exec` raises it: every row is modelled. Safe. -/
inductive Refusal where
  | notModelled (mnemonic : String)
deriving DecidableEq, Repr

/-- The registers of 10_state.md R10, in the order of its table, and `feed`, the model's own field. -/
structure State where
  /-- `PHASE` (R11). -/
  phase : Phase
  /-- `MOK`, marker OK (R13). -/
  mok : Bool
  /-- `HERR`, hex error (R14). -/
  herr : Bool
  /-- `OVF`, overflow (R15). -/
  ovf : Bool
  /-- `CNT`, the number of stored bytes (R12). -/
  cnt : Count
  /-- `SUM`, the accumulator (R18). -/
  sum : Byte
  /-- `BUF`, the frame buffer (R19). -/
  buf : Memory
  /-- `DONE` (R16). -/
  done : Bool
  /-- `STATUS` (R20). -/
  status : StatusCode
  /-- `CKC`, checksum computed (R21). -/
  ckc : Byte
  /-- `CKE`, checksum expected (R21). -/
  cke : Byte
  /-- `RTYPE` (R22). -/
  rtype : Byte
  /-- `LEN` (R23). -/
  len : Byte
  /-- `OFFSET` (R24). -/
  offset : Half
  /-- `F0` (R25). -/
  f0 : Half
  /-- `F1` (R25). -/
  f1 : Half
  /-- The events delivered and not yet consumed, oldest first. DESIGN CHOICE (log 1), safe. -/
  feed : List FeedEvent
deriving DecidableEq, Repr

/-- The state after `Reset()` (10_state.md R31), with nothing delivered yet (log 1). `BUF` is unspecified: no cell has
a value (log 3). -/
def State.reset : State where
  phase := .idle
  mok := false
  herr := false
  ovf := false
  cnt := 0
  sum := 0
  buf := []
  done := false
  status := 0
  ckc := 0
  cke := 0
  rtype := 0
  len := 0
  offset := 0
  f0 := 0
  f1 := 0
  feed := []

end Sys2Proof.Machine
end

