-- ==== Sys2Proof/Machine/Flags.lean ====
section
/-! DEFINITION. Every flag computation of the block, and the checksum primitive. -/

namespace Sys2Proof.Machine

/-- `MOK`: the first character is the marker (10_state.md R13). -/
def markerOk (data : Byte) : Bool := data == Config.marker

/-- The 8-bit sum of a byte sequence, carry discarded (41_checksum.md R111). -/
def byteSum : List Byte → Byte
  | [] => 0
  | b :: rest => b + byteSum rest

/-- `CK(b)`, the checksum primitive (41_checksum.md R110). -/
def ck (b : List Byte) : Byte := 0 - byteSum b

/-- `ACC`: the running sum after one more stored byte (41_checksum.md R112). -/
def accumulate (sum data : Byte) : Byte := sum + data

/-- `computed` of `VERIFY`: the checksum of all stored bytes but the last, from the sum of all of them
(41_checksum.md R114). -/
def computedChecksum (expected sum : Byte) : Byte := expected - sum

/-- Check 2 of `EVAL`: hex failure or over-long line (42_framing.md R127). -/
def malformed (s : State) : Bool := s.herr || s.ovf

end Sys2Proof.Machine
end

