-- ==== Sys2Proof/Syntax.lean ====
section
/-! DEFINITION. The instruction set: one constructor per row of spec/opcode_table.json. -/

namespace Sys2Proof

/-- The 17 rows of opcode_table.json. The first five are beat rows: what one 10-bit word asks for in its context
(30_encoding.md R61). The others are record rows: what the 32-bit header of a validated frame asks for (R69).
A beat word with bit 9 set is the row `last`, whatever its kind (log 6). -/
inductive Instr where
  /-- `MARK`: the first beat of a line (40_beat_ingest.md R91). -/
  | mark (hexerr : Bool) (data : Byte)
  /-- `BYTE`, storing case (R92). -/
  | byte (data : Byte)
  /-- `BYTE`, overflow case (R94). -/
  | byteOverflow (data : Byte)
  /-- `HEXERR`; its data bits are carried and ignored (R93). -/
  | hexerr (data : Byte)
  /-- The modifier `.L` on any beat: the beat's own effect and then the end of the line (R96). -/
  | last (hexerr : Bool) (data : Byte)
  /-- `DATA`, tag 0x00 (43_record_dispatch.md R141). -/
  | data (length : Byte) (offset : Half)
  /-- `EOF`, tag 0x01 (R142). -/
  | eof (length : Byte) (offset : Half)
  /-- `ESA`, tag 0x02 (R143). -/
  | esa (length : Byte) (offset : Half)
  /-- `SSA`, tag 0x03 (R144). -/
  | ssa (length : Byte) (offset : Half)
  /-- `ELA`, tag 0x04 (R145). -/
  | ela (length : Byte) (offset : Half)
  /-- `SLA`, tag 0x05 (R146). -/
  | sla (length : Byte) (offset : Half)
  /-- Unknown tags 0x06 to 0x07 (R147). -/
  | unknown06 (length : Byte) (offset : Half) (tag : Byte)
  /-- Unknown tags 0x08 to 0x0F (R147). -/
  | unknown08 (length : Byte) (offset : Half) (tag : Byte)
  /-- Unknown tags 0x10 to 0x1F (R147). -/
  | unknown10 (length : Byte) (offset : Half) (tag : Byte)
  /-- Unknown tags 0x20 to 0x3F (R147). -/
  | unknown20 (length : Byte) (offset : Half) (tag : Byte)
  /-- Unknown tags 0x40 to 0x7F (R147). -/
  | unknown40 (length : Byte) (offset : Half) (tag : Byte)
  /-- Unknown tags 0x80 to 0xFF (R147). -/
  | unknown80 (length : Byte) (offset : Half) (tag : Byte)
deriving DecidableEq, Repr

end Sys2Proof
end

