-- ==== Sys2Proof/WellFormed.lean ====
section
/-! DEFINITION. Which instruction terms the encoding admits. -/

namespace Sys2Proof

/-- An operand of bits is well formed by its width. The tag of an unknown-tag row must lie in that row's range
(opcode_table.json, 30_encoding.md R69, R70). -/
def Instr.wellFormed : Instr → Bool
  | .mark _ _ | .byte _ | .byteOverflow _ | .hexerr _ | .last _ _ => true
  | .data _ _ | .eof _ _ | .esa _ _ | .ssa _ _ | .ela _ _ | .sla _ _ => true
  | .unknown06 _ _ tag => 0x06 ≤ tag.toNat && tag.toNat ≤ 0x07
  | .unknown08 _ _ tag => 0x08 ≤ tag.toNat && tag.toNat ≤ 0x0F
  | .unknown10 _ _ tag => 0x10 ≤ tag.toNat && tag.toNat ≤ 0x1F
  | .unknown20 _ _ tag => 0x20 ≤ tag.toNat && tag.toNat ≤ 0x3F
  | .unknown40 _ _ tag => 0x40 ≤ tag.toNat && tag.toNat ≤ 0x7F
  | .unknown80 _ _ tag => 0x80 ≤ tag.toNat && tag.toNat ≤ 0xFF

end Sys2Proof
end

