-- ==== Sys2Proof/Decode.lean ====
section
/-! DEFINITION. The decoder, total on any number, and the encoder, both written from the tables of 30_encoding.md. -/

namespace Sys2Proof

/-- What a beat word is decoded against (30_encoding.md R61 and the column `context` of opcode_table.json):
`PHASE = IDLE`; `PHASE = BODY` with room in the frame; `PHASE = BODY` with `CNT = 260`. -/
inductive BeatContext where
  | idle
  | bodyRoom
  | bodyFull
deriving DecidableEq, Repr

/-- Why a number is no code word of the block. -/
inductive DecodeReject where
  /-- A beat word has 10 bits (R60). -/
  | beatOverTenBits (word : Nat)
  /-- A header word has 32 bits (R69). -/
  | headerOver32Bits (word : Nat)
  /-- The table has rows of 10 bits and of 32 bits only. -/
  | noRowOfThisWidth (bits : Nat)
deriving DecidableEq, Repr

/-- The decoder's answer: an instruction, or a rejection by name. -/
inductive Decoded where
  | instr (i : Instr)
  | rejected (why : DecodeReject)
deriving DecidableEq, Repr

/-- The instruction of an answer, if it is one. -/
def Decoded.toOption : Decoded → Option Instr
  | .instr i => some i
  | .rejected _ => none

/-- Bit 9 of a beat word (R60). -/
def beatLast (w : BeatWord) : Bool := w.getLsbD 9

/-- Bit 8 of a beat word (R60). -/
def beatHexerr (w : BeatWord) : Bool := w.getLsbD 8

/-- Bits 7:0 of a beat word (R60). -/
def beatData (w : BeatWord) : Byte := w.extractLsb' 0 8

/-- Bits 31:24 of a header word, `BUF[0]` (R69). -/
def headerLength (h : HeaderWord) : Byte := h.extractLsb' 24 8

/-- Bits 23:8 of a header word, `BUF[1] ∥ BUF[2]` (R69). -/
def headerOffset (h : HeaderWord) : Half := h.extractLsb' 8 16

/-- Bits 7:0 of a header word, `BUF[3]` (R69). -/
def headerTag (h : HeaderWord) : Byte := h.extractLsb' 0 8

/-- Decode of a beat word in its context (R61, R90). All 1024 words are legal (R60). -/
def decodeBeat (c : BeatContext) (w : BeatWord) : Instr :=
  if beatLast w then .last (beatHexerr w) (beatData w)
  else match c with
    | .idle => .mark (beatHexerr w) (beatData w)
    | .bodyRoom => if beatHexerr w then .hexerr (beatData w) else .byte (beatData w)
    | .bodyFull => if beatHexerr w then .hexerr (beatData w) else .byteOverflow (beatData w)

/-- Decode of a header word by its tag, mask and match as the table gives them (R69, R70, R140, R147). -/
def decodeHeader (h : HeaderWord) : Instr :=
  let length := headerLength h
  let offset := headerOffset h
  let tag := headerTag h
  if tag = 0x00 then .data length offset
  else if tag = 0x01 then .eof length offset
  else if tag = 0x02 then .esa length offset
  else if tag = 0x03 then .ssa length offset
  else if tag = 0x04 then .ela length offset
  else if tag = 0x05 then .sla length offset
  else if tag &&& 0xFE = 0x06 then .unknown06 length offset tag
  else if tag &&& 0xF8 = 0x08 then .unknown08 length offset tag
  else if tag &&& 0xF0 = 0x10 then .unknown10 length offset tag
  else if tag &&& 0xE0 = 0x20 then .unknown20 length offset tag
  else if tag &&& 0xC0 = 0x40 then .unknown40 length offset tag
  else .unknown80 length offset tag

/-- Decode of any number as a code word of `bits` bits: total, rejecting by name. -/
def decode (c : BeatContext) (bits word : Nat) : Decoded :=
  if bits = 10 then
    if word < 2 ^ 10 then .instr (decodeBeat c (BitVec.ofNat 10 word)) else .rejected (.beatOverTenBits word)
  else if bits = 32 then
    if word < 2 ^ 32 then .instr (decodeHeader (BitVec.ofNat 32 word)) else .rejected (.headerOver32Bits word)
  else .rejected (.noRowOfThisWidth bits)

/-- A beat word from its three fields (R60). -/
def beatWord (last hexerr : Bool) (data : Byte) : BeatWord :=
  BitVec.ofBool last ++ (BitVec.ofBool hexerr ++ data)

/-- A header word from its three fields (R69). -/
def headerWord (length : Byte) (offset : Half) (tag : Byte) : HeaderWord :=
  length ++ (offset ++ tag)

/-- How many bits the word of an instruction has. -/
def Instr.bits : Instr → Nat
  | .mark _ _ | .byte _ | .byteOverflow _ | .hexerr _ | .last _ _ => 10
  | .data _ _ | .eof _ _ | .esa _ _ | .ssa _ _ | .ela _ _ | .sla _ _ => 32
  | .unknown06 _ _ _ | .unknown08 _ _ _ | .unknown10 _ _ _ => 32
  | .unknown20 _ _ _ | .unknown40 _ _ _ | .unknown80 _ _ _ => 32

/-- The encoder: the number of an instruction's word, bits numbered as opcode_table.json numbers them. -/
def encode : Instr → Nat
  | .mark hexerr data => (beatWord false hexerr data).toNat
  | .byte data => (beatWord false false data).toNat
  | .byteOverflow data => (beatWord false false data).toNat
  | .hexerr data => (beatWord false true data).toNat
  | .last hexerr data => (beatWord true hexerr data).toNat
  | .data length offset => (headerWord length offset 0x00).toNat
  | .eof length offset => (headerWord length offset 0x01).toNat
  | .esa length offset => (headerWord length offset 0x02).toNat
  | .ssa length offset => (headerWord length offset 0x03).toNat
  | .ela length offset => (headerWord length offset 0x04).toNat
  | .sla length offset => (headerWord length offset 0x05).toNat
  | .unknown06 length offset tag => (headerWord length offset tag).toNat
  | .unknown08 length offset tag => (headerWord length offset tag).toNat
  | .unknown10 length offset tag => (headerWord length offset tag).toNat
  | .unknown20 length offset tag => (headerWord length offset tag).toNat
  | .unknown40 length offset tag => (headerWord length offset tag).toNat
  | .unknown80 length offset tag => (headerWord length offset tag).toNat

/-- In which contexts a row stands: the column `context` of opcode_table.json. A header has no beat context. -/
def Instr.admits : Instr → BeatContext → Bool
  | .mark _ _, c => c == .idle
  | .byte _, c => c == .bodyRoom
  | .byteOverflow _, c => c == .bodyFull
  | .hexerr _, c => c == .bodyRoom || c == .bodyFull
  | .last _ _, _ => true
  | .data _ _, _ | .eof _ _, _ | .esa _ _, _ | .ssa _ _, _ | .ela _ _, _ | .sla _ _, _ => true
  | .unknown06 _ _ _, _ | .unknown08 _ _ _, _ | .unknown10 _ _ _, _ => true
  | .unknown20 _ _ _, _ | .unknown40 _ _ _, _ | .unknown80 _ _ _, _ => true

/-- The column `mask` of a row in opcode_table.json. -/
def Instr.rowMask : Instr → Nat
  | .mark _ _ => 0x000
  | .byte _ | .byteOverflow _ | .hexerr _ => 0x100
  | .last _ _ => 0x200
  | .data _ _ | .eof _ _ | .esa _ _ | .ssa _ _ | .ela _ _ | .sla _ _ => 0x000000FF
  | .unknown06 _ _ _ => 0x000000FE
  | .unknown08 _ _ _ => 0x000000F8
  | .unknown10 _ _ _ => 0x000000F0
  | .unknown20 _ _ _ => 0x000000E0
  | .unknown40 _ _ _ => 0x000000C0
  | .unknown80 _ _ _ => 0x00000080

/-- The column `match` of a row in opcode_table.json. -/
def Instr.rowMatch : Instr → Nat
  | .mark _ _ | .byte _ | .byteOverflow _ => 0x000
  | .hexerr _ => 0x100
  | .last _ _ => 0x200
  | .data _ _ => 0x00000000
  | .eof _ _ => 0x00000001
  | .esa _ _ => 0x00000002
  | .ssa _ _ => 0x00000003
  | .ela _ _ => 0x00000004
  | .sla _ _ => 0x00000005
  | .unknown06 _ _ _ => 0x00000006
  | .unknown08 _ _ _ => 0x00000008
  | .unknown10 _ _ _ => 0x00000010
  | .unknown20 _ _ _ => 0x00000020
  | .unknown40 _ _ _ => 0x00000040
  | .unknown80 _ _ _ => 0x00000080

/-- The context in which a beat word of the opcode table is read when nothing else is known: a line in progress with
room in its frame. DESIGN CHOICE (log 7), safe: `MARK`, `BYTE` and `BYTE (overflow case)` share their words, and the
step itself always decodes in the context of its own state. -/
def tableContext : BeatContext := .bodyRoom

/-- The instruction read from a word numbered as opcode_table.json numbers it: a beat word in at most two bytes, a
header word in four (log 7, log 8). -/
def decodeTableWord (nbits w : Nat) : Option Instr :=
  if nbits ≤ 16 then (decode tableContext 10 w).toOption else (decode tableContext nbits w).toOption

end Sys2Proof
end

