-- ==== Sys2Proof/Machine/Memory.lean ====
section
/-! DEFINITION. The frame buffer as data: reading a cell, writing a cell, the canonical form. -/

namespace Sys2Proof.Machine

/-- What an unlisted cell reads as: no value (10_state.md R19, R31, 93_implementation_defined.md U7; log 3). Safe. -/
def unlistedCell : Option Byte := none

/-- The byte of one cell. -/
def Memory.read : Memory → Nat → Option Byte
  | [], _ => unlistedCell
  | (a, b) :: rest, i => if i = a then some b else Memory.read rest i

/-- Write of one cell, keeping the addresses strictly rising. -/
def Memory.write : Memory → Nat → Byte → Memory
  | [], i, v => [(i, v)]
  | (a, b) :: rest, i, v =>
    if i < a then (i, v) :: (a, b) :: rest
    else if i = a then (i, v) :: rest
    else (a, b) :: Memory.write rest i v

/-- The addresses of the cells rise strictly, all at or above `from`. -/
def Memory.rising : Nat → Memory → Bool
  | _, [] => true
  | low, (a, _) :: rest => decide (low ≤ a) && Memory.rising (a + 1) rest

/-- Every cell lies in the frame space, addresses 0 to 259 (20_memory.md R40, R43). -/
def Memory.inFrame : Memory → Bool
  | [] => true
  | (a, _) :: rest => decide (a < Config.maxFrame) && Memory.inFrame rest

/-- The canonical form: strictly rising addresses of the frame space. An unlisted cell has no value, so no entry can
equal what an unlisted address reads as. -/
def Memory.wf (m : Memory) : Bool := Memory.rising 0 m && Memory.inFrame m

end Sys2Proof.Machine
end

