-- ==== Sys2Proof/Machine/Operands.lean ====
section
/-! DEFINITION. Operand assembly: multi-byte fields, the context of a beat, and every read of the frame buffer. -/

namespace Sys2Proof.Machine

/-- A 16-bit field from two bytes, the first the more significant (20_memory.md R45, 30_encoding.md R68). -/
def joinHalf (hi lo : Byte) : Half := hi ++ lo

/-- A 32-bit field from two 16-bit ones (10_state.md R27, 30_encoding.md R68). -/
def joinWord (hi lo : Half) : Address32 := hi ++ lo

/-- The more significant byte of a 16-bit field (20_memory.md R47). -/
def halfHi (v : Half) : Byte := v.extractLsb' 8 8

/-- The less significant byte of a 16-bit field (20_memory.md R47). -/
def halfLo (v : Half) : Byte := v.extractLsb' 0 8

/-- Bits 31:16 of a 32-bit address (43_record_dispatch.md R146). -/
def wordHi (v : Address32) : Half := v.extractLsb' 16 16

/-- Bits 15:0 of a 32-bit address (43_record_dispatch.md R146). -/
def wordLo (v : Address32) : Half := v.extractLsb' 0 16

/-- What a beat is decoded against in a state (30_encoding.md R61, 40_beat_ingest.md R90). -/
def State.beatContext (s : State) : BeatContext :=
  match s.phase with
  | .idle => .idle
  | .body => if s.cnt.toNat = Config.maxFrame then .bodyFull else .bodyRoom

/-- Read of `BUF[i]`, defined only for `i < CNT` (20_memory.md R42; log 3). -/
def State.readBuf (s : State) (i : Nat) : Except Fault Byte :=
  if i < s.cnt.toNat then
    match s.buf.read i with
    | some b => .ok b
    | none => .error .readOfUnwrittenCell
  else .error .readBeyondFrame

/-- `MemRead(i, 1)`: go on with the byte at `i` (00_scope.md R7). -/
def withByte (s : State) (i : Nat) (k : Byte → Host.Outcome State Fault Refusal) : Host.Outcome State Fault Refusal :=
  match s.readBuf i with
  | .ok b => k b
  | .error f => .fault f

/-- `MemRead(i, 2)`, big-endian (00_scope.md R7, 20_memory.md R45). -/
def withHalf (s : State) (i : Nat) (k : Half → Host.Outcome State Fault Refusal) : Host.Outcome State Fault Refusal :=
  withByte s i fun hi => withByte s (i + 1) fun lo => k (joinHalf hi lo)

/-- `MemRead(i, 4)`, big-endian (00_scope.md R7, 20_memory.md R45). -/
def withWord (s : State) (i : Nat) (k : Address32 → Host.Outcome State Fault Refusal) :
    Host.Outcome State Fault Refusal :=
  withHalf s i fun hi => withHalf s (i + 2) fun lo => k (joinWord hi lo)

end Sys2Proof.Machine
end

