-- ==== Sys2Proof/Machine/Result.lean ====
section
/-! DEFINITION. The document's abstract types, `ParseError` and `Record`, the evaluation of a line as a pure function
of what was delivered, and the outputs a reader sees (10_state.md R27, R28). -/

namespace Sys2Proof.Machine

/-- The closed set of five errors (60_exceptions.md R160). -/
inductive ParseError where
  | missingMarker
  | malformedHex
  | badChecksum (computed expected : Byte)
  | lengthMismatch
  | unknownRecordType
deriving DecidableEq, Repr

/-- The six record variants (43_record_dispatch.md R141 to R146). The length of Data is that of its payload
(90_conflicts.md C7). -/
inductive Record where
  | data (offset : Half) (payload : List Byte)
  | endOfFile
  | extendedSegmentAddress (segment : Half)
  | startSegmentAddress (cs ip : Half)
  | extendedLinearAddress (upper : Half)
  | startLinearAddress (addr : Address32)
deriving DecidableEq, Repr

/-- The result of a line (10_state.md R28): none yet, a record, or an error. -/
inductive LineResult where
  | pending
  | ok (record : Record)
  | err (error : ParseError)
deriving DecidableEq, Repr

/-- The codes of `STATUS` (10_state.md R20, 60_exceptions.md R160). -/
def ParseError.code : ParseError → StatusCode
  | .missingMarker => 1
  | .malformedHex => 2
  | .badChecksum _ _ => 3
  | .lengthMismatch => 4
  | .unknownRecordType => 5

/-- A record the document can construct: a payload of 0 to 255 bytes (10_state.md R23). -/
def Record.constructible : Record → Bool
  | .data _ payload => decide (payload.length ≤ Config.maxPayload)
  | .endOfFile | .extendedSegmentAddress _ | .startSegmentAddress _ _ => true
  | .extendedLinearAddress _ | .startLinearAddress _ => true

/-- `CKGEN`, valid in every state (41_checksum.md R113). -/
def State.ckgen (s : State) : Byte := 0 - s.sum

/-- `ADDR32 = F0 ∥ F1` (10_state.md R27). -/
def State.addr32 (s : State) : Address32 := joinWord s.f0 s.f1

/-- `ERR` (10_state.md R27). -/
def State.err (s : State) : Bool := s.done && s.status != 0

/-- Whether `PAYLOAD[i]` stands for a byte of an accepted record (10_state.md R27). -/
def State.payloadValid (s : State) (i : Nat) : Bool := s.done && s.status == 0 && decide (i < s.len.toNat)

/-- `PAYLOAD[i]` (10_state.md R27, 20_memory.md R44): the byte at frame address `4 + i` inside the window, a free
value outside it (93_implementation_defined.md U4; log 5). -/
def State.payload (s : State) (i : Nat) : Byte :=
  if s.payloadValid i then (s.buf.read (Config.hdrBytes + i)).getD (Config.unspecifiedByte s i)
  else Config.unspecifiedByte s i

/-- The stored bytes of the current or last line, `BUF[0 .. CNT-1]`. -/
def State.frameBytes (s : State) : List Byte := (List.range s.cnt.toNat).filterMap fun i => s.buf.read i

/-- The record of an accepted line, read from the registers by the table of 10_state.md R28. -/
def State.record (s : State) : Option Record :=
  if s.rtype = 0x00 then some (.data s.offset ((List.range s.len.toNat).map s.payload))
  else if s.rtype = 0x01 then some .endOfFile
  else if s.rtype = 0x02 then some (.extendedSegmentAddress s.f0)
  else if s.rtype = 0x03 then some (.startSegmentAddress s.f0 s.f1)
  else if s.rtype = 0x04 then some (.extendedLinearAddress s.f0)
  else if s.rtype = 0x05 then some (.startLinearAddress s.addr32)
  else none

/-- The abstract result of a state (10_state.md R28). `none` for register values no row of that table has (log 14). -/
def State.result (s : State) : Option LineResult :=
  if s.done then
    if s.status = 0 then s.record.map .ok
    else if s.status = 1 then some (.err .missingMarker)
    else if s.status = 2 then some (.err .malformedHex)
    else if s.status = 3 then some (.err (.badChecksum s.ckc s.cke))
    else if s.status = 4 then some (.err .lengthMismatch)
    else if s.status = 5 then some (.err .unknownRecordType)
    else none
  else some .pending

/-- The width a record type requires of the declared length (43_record_dispatch.md R148); none for Data. -/
def widthFits (tag : Byte) (length : Nat) : Bool :=
  if tag = 0x01 then length == 0
  else if tag = 0x02 then length == 2
  else if tag = 0x03 then length == 4
  else if tag = 0x04 then length == 2
  else if tag = 0x05 then length == 4
  else true

/-- The record of a tag, an offset and a payload of the right width (43_record_dispatch.md R141 to R147). -/
def payloadRecord (tag : Byte) (offset : Half) (payload : List Byte) : LineResult :=
  if 0x05 < tag.toNat then .err .unknownRecordType
  else if !widthFits tag payload.length then .err .lengthMismatch
  else if tag = 0x00 then .ok (.data offset payload)
  else match tag.toNat, payload with
    | 1, _ => .ok .endOfFile
    | 2, [p0, p1] => .ok (.extendedSegmentAddress (joinHalf p0 p1))
    | 3, [p0, p1, p2, p3] => .ok (.startSegmentAddress (joinHalf p0 p1) (joinHalf p2 p3))
    | 4, [p0, p1] => .ok (.extendedLinearAddress (joinHalf p0 p1))
    | 5, [p0, p1, p2, p3] => .ok (.startLinearAddress (joinWord (joinHalf p0 p1) (joinHalf p2 p3)))
    | _, _ => .err .lengthMismatch

/-- The result of a line as a pure function of its marker test, its hex and bound verdict and its frame: the
document's ordered, short-circuiting checks over a byte sequence (42_framing.md R125, 60_exceptions.md R167). It uses
no register and the checksum by its definition, `CK` of all bytes but the last. -/
def frameResult (marker bad : Bool) (frame : List Byte) : LineResult :=
  if !marker then .err .missingMarker
  else if bad then .err .malformedHex
  else match frame.getLast? with
    | none => .err .lengthMismatch
    | some expected =>
      if ck frame.dropLast ≠ expected then .err (.badChecksum (ck frame.dropLast) expected)
      else match frame with
        | length :: offHi :: offLo :: tag :: rest =>
          if rest = [] then .err .lengthMismatch
          else if rest.length - 1 ≠ length.toNat then .err .lengthMismatch
          else payloadRecord tag (joinHalf offHi offLo) rest.dropLast
        | _ => .err .lengthMismatch

/-- The bytes a line delivers: the data of its body beats without `hexerr` (40_beat_ingest.md R90). -/
def bodyBytes (body : List BeatWord) : List Byte := (body.filter fun w => !beatHexerr w).map beatData

/-- The result of a whole line of beats, as a function of those beats alone (10_state.md R30). -/
def lineResult : List BeatWord → LineResult
  | [] => .pending
  | first :: body =>
    frameResult (markerOk (beatData first))
      ((first :: body).any beatHexerr || decide (Config.maxFrame < (bodyBytes body).length))
      (bodyBytes body)

end Sys2Proof.Machine
end

