-- ==== Sys2Proof/Machine/Ops.lean ====
section
/-! DEFINITION. The named operations over the registers: each the register transfer of one rule, and the shared shape
of the meanings. Reporting an error (`State.reportError`) is the block's one way of taking an exception; there is no
return from it (60_exceptions.md R166, R169). -/

namespace Sys2Proof.Machine

/-- The outcome of a step of this machine. -/
abbrev StepOutcome := Host.Outcome State Fault Refusal

/-- Go on with the next state, if there is one. -/
def andThen (o : StepOutcome) (k : State → StepOutcome) : StepOutcome :=
  match o with
  | .next s => k s
  | .fault f => .fault f
  | .refused r => .refused r

/-- The delivered events still to come. -/
def State.withFeed (s : State) (feed : List FeedEvent) : State := { s with feed := feed }

/-- `Reset()` (70_reset_and_hazards.md R190): every register at the value of R31. The events still to come are the
outside world's and stay; `BUF` holds no value any more (log 4). -/
def State.resetRegisters (s : State) : State := { State.reset with feed := s.feed }

/-- The register transfer of `MARK` (40_beat_ingest.md R91). `BUF` is not written. -/
def State.startLine (hexerr : Bool) (data : Byte) (s : State) : State :=
  { s with
    done := false, status := 0, ckc := 0, cke := 0, rtype := 0, len := 0, offset := 0, f0 := 0, f1 := 0
    cnt := 0, sum := 0, ovf := false
    mok := markerOk data, herr := hexerr, phase := .body }

/-- The register transfer of `BYTE` in its storing case (40_beat_ingest.md R92): all three writes use the old `CNT`
and `SUM`. -/
def State.appendByte (data : Byte) (s : State) : State :=
  { s with buf := s.buf.write s.cnt.toNat data, sum := accumulate s.sum data, cnt := s.cnt + 1 }

/-- The register transfer of `BYTE` in its overflow case (40_beat_ingest.md R94): the byte is dropped. -/
def State.dropByte (s : State) : State := { s with ovf := true }

/-- The register transfer of `HEXERR` (40_beat_ingest.md R93). -/
def State.noteHexerr (s : State) : State := { s with herr := true }

/-- `DONE <- 1`, the first act of `EVAL` (42_framing.md R125). -/
def State.markDone (s : State) : State := { s with done := true }

/-- `CKE <- expected; CKC <- computed` (41_checksum.md R114). -/
def State.recordChecksums (computed expected : Byte) (s : State) : State := { s with ckc := computed, cke := expected }

/-- `raise <Error>` (60_exceptions.md R166). The arguments of `BadChecksum` stand in `CKC`, `CKE` already. -/
def State.reportError (e : ParseError) (s : State) : State :=
  { s with status := e.code, rtype := 0, len := 0, offset := 0, f0 := 0, f1 := 0 }

/-- `result Ok(record)` (42_framing.md R134). -/
def State.reportRecord (rtype len : Byte) (offset f0 f1 : Half) (s : State) : State :=
  { s with status := 0, rtype := rtype, len := len, offset := offset, f0 := f0, f1 := f1 }

/-- `PHASE <- IDLE`, the last act of a line's last beat (40_beat_ingest.md R96). -/
def State.endLine (s : State) : State := { s with phase := .idle }

/-- `MemWrite(CNT, 1, data)` with its count and sum (40_beat_ingest.md R92, R99). There is no frame address at or above
260 (20_memory.md R43; log 9). -/
def storeByte (data : Byte) (s : State) : StepOutcome :=
  if s.cnt.toNat < Config.maxFrame then .next (s.appendByte data) else .fault .noSuchFrameAddress

/-- End the evaluation with an error (00_scope.md R7 `raise`). -/
def raise (e : ParseError) (s : State) : StepOutcome := .next (s.reportError e)

/-- The width check of a record arm: `LengthMismatch` unless the declared length is the type's width
(43_record_dispatch.md R148). -/
def requireWidth (width length : Byte) (s : State) (accept : StepOutcome) : StepOutcome :=
  if length = width then accept else raise .lengthMismatch s

end Sys2Proof.Machine
end

