-- ==== Sys2Proof/Machine/Record.lean ====
section
/-! DEFINITION. The meanings of the record rows: the arms of `DISPATCH` (43_record_dispatch.md R140 to R148). The
operands are the header's length and offset, which `EVAL` has read from `BUF[0..2]` (42_framing.md R132; log 8). -/

namespace Sys2Proof.Machine

/-- `DATA`, tag 0x00 (R141): no width check. -/
def execData (length : Byte) (offset : Half) (s : State) : StepOutcome :=
  .next (s.reportRecord 0x00 length offset 0 0)

/-- `EOF`, tag 0x01 (R142): the payload must be empty. -/
def execEof (length : Byte) (offset : Half) (s : State) : StepOutcome :=
  requireWidth 0 length s (.next (s.reportRecord 0x01 length offset 0 0))

/-- `ESA`, tag 0x02 (R143): `F0` is the segment. -/
def execEsa (length : Byte) (offset : Half) (s : State) : StepOutcome :=
  requireWidth 2 length s (withHalf s 4 fun seg => .next (s.reportRecord 0x02 length offset seg 0))

/-- `SSA`, tag 0x03 (R144): `F0` is the code segment, `F1` the instruction pointer. -/
def execSsa (length : Byte) (offset : Half) (s : State) : StepOutcome :=
  requireWidth 4 length s
    (withHalf s 4 fun cs => withHalf s 6 fun ip => .next (s.reportRecord 0x03 length offset cs ip))

/-- `ELA`, tag 0x04 (R145): `F0` is the upper half of an address. -/
def execEla (length : Byte) (offset : Half) (s : State) : StepOutcome :=
  requireWidth 2 length s (withHalf s 4 fun upper => .next (s.reportRecord 0x04 length offset upper 0))

/-- `SLA`, tag 0x05 (R146): `F0`, `F1` are the halves of one 32-bit address. -/
def execSla (length : Byte) (offset : Half) (s : State) : StepOutcome :=
  requireWidth 4 length s
    (withWord s 4 fun addr => .next (s.reportRecord 0x05 length offset (wordHi addr) (wordLo addr)))

/-- Unknown tags 0x06 to 0x07 (R147); no operand is examined. -/
def execUnknown06 (_length : Byte) (_offset : Half) (_tag : Byte) (s : State) : StepOutcome :=
  raise .unknownRecordType s

/-- Unknown tags 0x08 to 0x0F (R147). -/
def execUnknown08 (_length : Byte) (_offset : Half) (_tag : Byte) (s : State) : StepOutcome :=
  raise .unknownRecordType s

/-- Unknown tags 0x10 to 0x1F (R147). -/
def execUnknown10 (_length : Byte) (_offset : Half) (_tag : Byte) (s : State) : StepOutcome :=
  raise .unknownRecordType s

/-- Unknown tags 0x20 to 0x3F (R147). -/
def execUnknown20 (_length : Byte) (_offset : Half) (_tag : Byte) (s : State) : StepOutcome :=
  raise .unknownRecordType s

/-- Unknown tags 0x40 to 0x7F (R147). -/
def execUnknown40 (_length : Byte) (_offset : Half) (_tag : Byte) (s : State) : StepOutcome :=
  raise .unknownRecordType s

/-- Unknown tags 0x80 to 0xFF (R147). -/
def execUnknown80 (_length : Byte) (_offset : Half) (_tag : Byte) (s : State) : StepOutcome :=
  raise .unknownRecordType s

/-- `DISPATCH(type)` (R140): one arm for each known tag, and for every other tag the arm of its row. The tag is
`BUF[3]`, the low byte of the header. -/
def dispatch (h : HeaderWord) (s : State) : StepOutcome :=
  let length := headerLength h
  let offset := headerOffset h
  let tag := headerTag h
  if tag = 0x00 then execData length offset s
  else if tag = 0x01 then execEof length offset s
  else if tag = 0x02 then execEsa length offset s
  else if tag = 0x03 then execSsa length offset s
  else if tag = 0x04 then execEla length offset s
  else if tag = 0x05 then execSla length offset s
  else if tag.toNat ≤ 0x07 then execUnknown06 length offset tag s
  else if tag.toNat ≤ 0x0F then execUnknown08 length offset tag s
  else if tag.toNat ≤ 0x1F then execUnknown10 length offset tag s
  else if tag.toNat ≤ 0x3F then execUnknown20 length offset tag s
  else if tag.toNat ≤ 0x7F then execUnknown40 length offset tag s
  else execUnknown80 length offset tag s

end Sys2Proof.Machine
end

