-- ==== Sys2Proof/Machine/Eval.lean ====
section
/-! DEFINITION. `EVAL`, the work of a line's last beat (42_framing.md R125), its checks in order. -/

namespace Sys2Proof.Machine

/-- Checks 6 and 7 and the header extraction, for a frame of at least five bytes (R131, R132, R133). -/
def evalHeader (s : State) : StepOutcome :=
  withByte s 0 fun length =>
    if s.cnt.toNat - Config.minFrame ≠ length.toNat then raise .lengthMismatch s
    else withWord s 0 fun header => dispatch header s

/-- Checks 5 to 7 (R130 to R133). -/
def evalFrame (s : State) : StepOutcome :=
  if s.cnt.toNat < Config.minFrame then raise .lengthMismatch s else evalHeader s

/-- Check 4, `VERIFY`, and what follows it (41_checksum.md R114, 42_framing.md R129). -/
def evalChecksum (expected : Byte) (s : State) : StepOutcome :=
  let computed := computedChecksum expected s.sum
  let t := s.recordChecksums computed expected
  if computed ≠ expected then raise (.badChecksum computed expected) t else evalFrame t

/-- `EVAL()` (R125): `DONE <- 1`, then the seven checks, stopping at the first that fails (R126 to R133). -/
def eval (s : State) : StepOutcome :=
  let t := s.markDone
  if !t.mok then raise .missingMarker t
  else if malformed t then raise .malformedHex t
  else if t.cnt.toNat = 0 then raise .lengthMismatch t
  else withByte t (t.cnt.toNat - 1) fun expected => evalChecksum expected t

end Sys2Proof.Machine
end

