-- ==== Sys2Proof/Machine/Beat.lean ====
section
/-! DEFINITION. The meanings of the beat rows (40_beat_ingest.md R90 to R96). -/

namespace Sys2Proof.Machine

/-- `MARK` without `last` (R91). -/
def execMark (hexerr : Bool) (data : Byte) (s : State) : StepOutcome := .next (s.startLine hexerr data)

/-- `BYTE` without `last`, storing case (R92). -/
def execByte (data : Byte) (s : State) : StepOutcome := storeByte data s

/-- `BYTE` without `last`, overflow case (R94); the byte is dropped. -/
def execByteOverflow (_data : Byte) (s : State) : StepOutcome := .next s.dropByte

/-- `HEXERR` without `last` (R93); `data` is ignored. -/
def execHexerr (_data : Byte) (s : State) : StepOutcome := .next s.noteHexerr

/-- The first part of `Step`: the effect of the beat's kind, which `PHASE`, `hexerr` and `CNT` decide (R90). -/
def beatEffect (hexerr : Bool) (data : Byte) (s : State) : StepOutcome :=
  match s.phase with
  | .idle => .next (s.startLine hexerr data)
  | .body =>
    if hexerr then .next s.noteHexerr
    else if s.cnt.toNat = Config.maxFrame then .next s.dropByte
    else storeByte data s

/-- Any beat with `last` (R96): the beat's own effect, then `EVAL`, then `PHASE <- IDLE`, all in one step. -/
def execLast (hexerr : Bool) (data : Byte) (s : State) : StepOutcome :=
  andThen (beatEffect hexerr data s) fun t => andThen (eval t) fun u => .next u.endLine

end Sys2Proof.Machine
end

