-- ==== Sys2Proof/Machine/Dispatch.lean ====
section
/-! DEFINITION. `exec`: one arm per instruction, each one call of its meaning. -/

namespace Sys2Proof.Machine

/-- The meaning of every instruction. -/
def exec (i : Instr) (s : State) : Host.Outcome State Fault Refusal :=
  match i with
  -- beat rows
  | .mark hexerr data => Sys2Proof.Machine.execMark hexerr data s
  | .byte data => Sys2Proof.Machine.execByte data s
  | .byteOverflow data => Sys2Proof.Machine.execByteOverflow data s
  | .hexerr data => Sys2Proof.Machine.execHexerr data s
  | .last hexerr data => Sys2Proof.Machine.execLast hexerr data s
  -- record rows
  | .data length offset => Sys2Proof.Machine.execData length offset s
  | .eof length offset => Sys2Proof.Machine.execEof length offset s
  | .esa length offset => Sys2Proof.Machine.execEsa length offset s
  | .ssa length offset => Sys2Proof.Machine.execSsa length offset s
  | .ela length offset => Sys2Proof.Machine.execEla length offset s
  | .sla length offset => Sys2Proof.Machine.execSla length offset s
  | .unknown06 length offset tag => Sys2Proof.Machine.execUnknown06 length offset tag s
  | .unknown08 length offset tag => Sys2Proof.Machine.execUnknown08 length offset tag s
  | .unknown10 length offset tag => Sys2Proof.Machine.execUnknown10 length offset tag s
  | .unknown20 length offset tag => Sys2Proof.Machine.execUnknown20 length offset tag s
  | .unknown40 length offset tag => Sys2Proof.Machine.execUnknown40 length offset tag s
  | .unknown80 length offset tag => Sys2Proof.Machine.execUnknown80 length offset tag s

end Sys2Proof.Machine
end

