-- ==== Sys2Proof/Machine/Fetch.lean ====
section
/-! DEFINITION. How the next event reaches the block, and how a word of the opcode table is placed to be the next. -/

namespace Sys2Proof.Machine

/-- One event of the feed (40_beat_ingest.md R90, 70_reset_and_hazards.md R190): a `RESET`, or a beat, decoded in the
context of the state it meets. -/
def runEvent (e : FeedEvent) (s : State) : StepOutcome :=
  match e with
  | .reset => .next s.resetRegisters
  | .beat w => exec (decodeBeat s.beatContext w) s

/-- A state in the middle of a line with room in its frame: `s` itself if it is one, else a line newly opened by the
marker (R91). What a body beat of the opcode table needs before it (log 7). -/
def State.inBody (s : State) : State :=
  if s.phase = .body ∧ s.cnt.toNat < Config.maxFrame then s else s.startLine false Config.marker

/-- The state in which a beat word of the opcode table runs as the row `decodeTableWord` names: a word with `last`
runs in any state, a word without it in a body (log 7). -/
def State.readyForBeat (s : State) (w : BeatWord) : State := if beatLast w then s else s.inBody

/-- A header word's four bytes in frame order (30_encoding.md R69). -/
def headerBytes (h : HeaderWord) : List Byte :=
  [headerLength h, halfHi (headerOffset h), halfLo (headerOffset h), headerTag h]

/-- The frame of a header with a payload of zeros of its declared length, before its checksum (log 8). -/
def headerFrame (h : HeaderWord) : List Byte := headerBytes h ++ List.replicate (headerLength h).toNat 0

/-- A line with the marker, of which the given bytes have been stored (R91, R92). -/
def State.lineOf (s : State) (bytes : List Byte) : State :=
  bytes.foldl (fun t b => t.appendByte b) (s.startLine false Config.marker)

/-- Deliver one beat before every event still to come. -/
def State.deliver (s : State) (w : BeatWord) : State := s.withFeed (.beat w :: s.feed)

/-- The state whose next step completes a line with this header, so that `DISPATCH` runs the header's row (log 8). -/
def State.placeHeader (s : State) (h : HeaderWord) : State :=
  (s.lineOf (headerFrame h)).deliver (beatWord true false (ck (headerFrame h)))

end Sys2Proof.Machine
end

