-- ==== Sys2Proof/Machine/Step.lean ====
section
/-! DEFINITION. One step of the block, and the placing of a word of the opcode table before it. -/

namespace Sys2Proof.Machine

/-- One step (00_scope.md R8): the oldest event of the feed is consumed and has its whole effect. With no event
delivered the block holds its state (60_exceptions.md R176; log 2). -/
def step (s : State) : Host.Outcome State Fault Refusal :=
  match s.feed with
  | [] => .next s
  | e :: rest => runEvent e (s.withFeed rest)

/-- `s` with the word stored where `step` takes its next instruction from (log 7, log 8): a beat word is the next
delivered event, in a state of the context `decodeTableWord` reads it in; a header word stands in the frame of a line
whose last beat is the next delivered event. -/
def State.withFetchWord (s : State) (nbits w : Nat) : State :=
  if nbits ≤ 16 then (s.readyForBeat (BitVec.ofNat 10 w)).deliver (BitVec.ofNat 10 w)
  else s.placeHeader (BitVec.ofNat 32 w)

end Sys2Proof.Machine
end

