-- ==== Sys2Proof/Machine/Line.lean ====
section
/-! DEFINITION. The feeder's side, which no step uses (00_scope.md R3, R9; log 11): the pseudo-instruction `LINE`
(30_encoding.md R63, R65), the canonical frame and line of each record (R80, R81, R83), and the delivery of a line. -/

namespace Sys2Proof.Machine

/-- The value of a hex digit, either case (R63; 93_implementation_defined.md G2, PRESUMED, log 11). -/
def hexDigit (c : Byte) : Option (BitVec 4) :=
  if 0x30 ≤ c.toNat ∧ c.toNat ≤ 0x39 then some (BitVec.ofNat 4 (c.toNat - 0x30))
  else if 0x41 ≤ c.toNat ∧ c.toNat ≤ 0x46 then some (BitVec.ofNat 4 (c.toNat - 0x41 + 10))
  else if 0x61 ≤ c.toNat ∧ c.toNat ≤ 0x66 then some (BitVec.ofNat 4 (c.toNat - 0x61 + 10))
  else none

/-- The upper-case form of a hex letter; any other character is itself (R63 item 5, R83). -/
def upperCase (c : Byte) : Byte := if 0x61 ≤ c.toNat ∧ c.toNat ≤ 0x66 then c - 0x20 else c

/-- The beats of a body, none with `last` yet: one `BYTE` for each complete pair of hex digits, and one `HEXERR` at the
first that is not (R65). The first digit of a pair is the high nibble (20_memory.md R46). -/
def bodyWords : List Byte → List BeatWord
  | [] => []
  | [_] => [beatWord false true 0]
  | c1 :: c2 :: rest =>
    match hexDigit c1, hexDigit c2 with
    | some hi, some lo => beatWord false false (hi ++ lo) :: bodyWords rest
    | _, _ => [beatWord false true 0]

/-- Set `last` on a beat word (R63 item 4). -/
def withLast (w : BeatWord) : BeatWord := beatWord true (beatHexerr w) (beatData w)

/-- Set `last` on the final beat of a line (R63 item 4). -/
def markFinal : List BeatWord → List BeatWord
  | [] => []
  | [w] => [withLast w]
  | w :: rest => w :: markFinal rest

/-- `LINE "<text>"` (R65): the beats of a text line. A blank line has none (70_reset_and_hazards.md R195). -/
def lineWords : List Byte → List BeatWord
  | [] => []
  | c0 :: body => markFinal (beatWord false false c0 :: bodyWords body)

/-- A sequence of beats that is one line: `last` on its final beat and on no other (70_reset_and_hazards.md R193,
R196). -/
def isLine : List BeatWord → Bool
  | [] => false
  | [w] => beatLast w
  | w :: rest => !beatLast w && isLine rest

/-- The canonical payload of a record (R81). -/
def Record.payloadBytes : Record → List Byte
  | .data _ payload => payload
  | .endOfFile => []
  | .extendedSegmentAddress seg => [halfHi seg, halfLo seg]
  | .startSegmentAddress cs ip => [halfHi cs, halfLo cs, halfHi ip, halfLo ip]
  | .extendedLinearAddress upper => [halfHi upper, halfLo upper]
  | .startLinearAddress addr =>
    [halfHi (wordHi addr), halfLo (wordHi addr), halfHi (wordLo addr), halfLo (wordLo addr)]

/-- The record-type tag, a total function of the variant (R80, R81). -/
def Record.tag : Record → Byte
  | .data _ _ => 0x00
  | .endOfFile => 0x01
  | .extendedSegmentAddress _ => 0x02
  | .startSegmentAddress _ _ => 0x03
  | .extendedLinearAddress _ => 0x04
  | .startLinearAddress _ => 0x05

/-- The canonical offset field: the record's for Data, 0 for the others (R81). -/
def Record.offsetField : Record → Half
  | .data offset _ => offset
  | .endOfFile | .extendedSegmentAddress _ | .startSegmentAddress _ _ => 0
  | .extendedLinearAddress _ | .startLinearAddress _ => 0

/-- Header and payload of the canonical frame (R81). -/
def Record.headerAndPayload (r : Record) : List Byte :=
  BitVec.ofNat 8 r.payloadBytes.length :: halfHi r.offsetField :: halfLo r.offsetField :: r.tag :: r.payloadBytes

/-- The canonical frame: header, payload, and the checksum primitive over them (R80). -/
def Record.canonicalFrame (r : Record) : List Byte := r.headerAndPayload ++ [ck r.headerAndPayload]

/-- The beats of a frame after the marker, `last` on the final one (R84). -/
def frameWords (frame : List Byte) : List BeatWord :=
  markFinal (beatWord false false Config.marker :: frame.map (beatWord false false))

/-- The lowercase hex digit of a nibble (R83). -/
def hexChar (n : BitVec 4) : Byte :=
  if n.toNat < 10 then BitVec.ofNat 8 (0x30 + n.toNat) else BitVec.ofNat 8 (0x61 + (n.toNat - 10))

/-- The two digits of a byte, high nibble first (20_memory.md R46). -/
def hexPair (b : Byte) : List Byte := [hexChar (b.extractLsb' 4 4), hexChar (b.extractLsb' 0 4)]

/-- The canonical text line: the marker and the hex digits of the canonical frame (R80, R83). -/
def Record.canonicalLine (r : Record) : List Byte := Config.marker :: r.canonicalFrame.flatMap hexPair

/-- Beats as events of the feed. -/
def beatEvents (ws : List BeatWord) : List FeedEvent := ws.map .beat

/-- So many steps of the machine, as the host runs it. -/
def runSteps (n : Nat) (s : State) : StepOutcome := Sys2Proof.core.run n s

/-- The machine after a line of beats has been delivered to `s` and consumed, one beat a step. -/
def runLine (s : State) (ws : List BeatWord) : StepOutcome :=
  runSteps ws.length (s.withFeed (beatEvents ws))

end Sys2Proof.Machine
end

