-- ==== Sys2Proof/Safety.lean ====
section
/-! DEFINITION. What a good state is: the invariants of 10_state.md R29, and the properties of a reported line. -/

namespace Sys2Proof.Machine

/-- The result registers are all zero. -/
def State.noResult (s : State) : Prop :=
  s.status = 0 ∧ s.ckc = 0 ∧ s.cke = 0 ∧ s.rtype = 0 ∧ s.len = 0 ∧ s.offset = 0 ∧ s.f0 = 0 ∧ s.f1 = 0

/-- The invariants of 10_state.md R29, numbered as there, with what they presuppose of `BUF`: that it is in canonical
form and that the stored cells have a value. -/
structure State.Inv (s : State) : Prop where
  /-- `BUF` is in canonical form, all its cells in the frame space (20_memory.md R40). -/
  bufWf : s.buf.wf = true
  /-- Every stored byte is there. -/
  stored : ∀ i, i < s.cnt.toNat → (s.buf.read i).isSome = true
  /-- (1) `CNT` is at most 260. -/
  cntLe : s.cnt.toNat ≤ Config.maxFrame
  /-- (2) `SUM` is the sum of the stored bytes. -/
  sumEq : s.sum = byteSum s.frameBytes
  /-- (3) `OVF` only on a full frame. -/
  ovfFull : s.ovf = true → s.cnt.toNat = Config.maxFrame
  /-- (4) `DONE` only between lines. -/
  doneIdle : s.done = true → s.phase = .idle
  /-- (5) No result without `DONE`. -/
  notDone : s.done = false → s.noResult
  /-- (6) What an accepted record implies. -/
  accepted : s.done = true → s.status = 0 →
    s.cnt.toNat = s.len.toNat + 5 ∧ s.sum = 0 ∧ s.ckc = s.cke ∧ s.buf.read (s.cnt.toNat - 1) = some s.cke ∧
      s.buf.read 0 = some s.len ∧ s.buf.read 3 = some s.rtype ∧ s.rtype.toNat ≤ 5
  /-- (7) `STATUS` is a code of the table. -/
  statusLe : s.status.toNat ≤ 5

/-- What a reported line's registers say of one another: 95_test_vectors.md section 9 items 5 to 7, from R21, R114,
R126 to R134, R163 and R166. -/
structure State.ReportInv (s : State) : Prop where
  /-- An accepted record had its marker, no hex failure and no overflow (item 6). -/
  acceptedClean : s.done = true → s.status = 0 → s.mok = true ∧ s.herr = false ∧ s.ovf = false
  /-- An error leaves every field register 0 (item 7, R166). -/
  errorClears : s.status ≠ 0 → s.rtype = 0 ∧ s.len = 0 ∧ s.offset = 0 ∧ s.f0 = 0 ∧ s.f1 = 0
  /-- `BadChecksum` reports two different bytes, computed and expected (item 5, R163). -/
  badPair : s.status = 3 →
    s.ckc ≠ s.cke ∧ s.ckc = ck s.frameBytes.dropLast ∧ s.frameBytes.getLast? = some s.cke
  /-- Every result after the comparison has equal bytes (item 5, R21). -/
  equalPair : s.status = 0 ∨ s.status = 4 ∨ s.status = 5 → s.ckc = s.cke
  /-- `MissingMarker` and `MalformedHex` come before the comparison (item 5, R21). -/
  noPair : s.status = 1 ∨ s.status = 2 → s.ckc = 0 ∧ s.cke = 0

/-- The result registers and `DONE`, what a reader sees between lines except the payload window (20_memory.md R52). -/
def State.report (s : State) : Bool × StatusCode × Byte × Byte × Byte × Byte × Half × Half × Half :=
  (s.done, s.status, s.ckc, s.cke, s.rtype, s.len, s.offset, s.f0, s.f1)

end Sys2Proof.Machine
end

