-- ==== Sys2Proof/Certificates/Slice0/Obligations.lean ====
section
/-! DEFINITION. The statements for the provers, from the numbered rules of spec/. -/

open Sys2Proof
open Sys2Proof.Machine

/-! ### Reset -/

/-- R31: every register after reset, `CKGEN` and `ERR` with it. Of `BUF`, which R31 leaves unspecified, nothing is
said. -/
def Obligations.ResetLeavesEveryRegisterZero : Prop :=
  let s := State.reset
  s.phase = .idle ∧ s.mok = false ∧ s.herr = false ∧ s.ovf = false ∧ s.cnt = 0 ∧ s.sum = 0 ∧ s.done = false ∧
    s.status = 0 ∧ s.ckc = 0 ∧ s.cke = 0 ∧ s.rtype = 0 ∧ s.len = 0 ∧ s.offset = 0 ∧ s.f0 = 0 ∧ s.f1 = 0 ∧
    s.ckgen = 0 ∧ s.err = false

/-- R190: a `RESET` in any state, in the middle of a line too, puts every register at its value of R31. Of `BUF`, which
R190 leaves unspecified, nothing is said; the events still to come stay (log 4). -/
def Obligations.ResetEventForgetsTheLine : Prop :=
  ∀ (s : State) (rest : List FeedEvent), s.feed = .reset :: rest →
    ∃ t, step s = .next t ∧ { t with buf := s.buf } = { State.reset with buf := s.buf, feed := rest }

/-! ### Beats -/

/-- R91: `MARK`, the whole next state, and with `last` the evaluation of the empty frame in the same step. -/
def Obligations.MarkStartsLine : Prop :=
  ∀ (s : State) (h : Bool) (d : Byte),
    let t : State :=
      { s with
        done := false, status := 0, ckc := 0, cke := 0, rtype := 0, len := 0, offset := 0, f0 := 0, f1 := 0
        cnt := 0, sum := 0, ovf := false, mok := decide (d.toNat = 0x3A), herr := h, phase := .body }
    exec (.mark h d) s = .next t ∧
      (s.phase = .idle → exec (.last h d) s = andThen (eval t) fun u => .next { u with phase := .idle })

/-- R92, R112: `BYTE` with room in the frame stores, adds modulo 256, counts, and changes nothing else. -/
def Obligations.ByteStoresAddsAndCounts : Prop :=
  ∀ (s : State) (d : Byte), s.cnt.toNat < 260 →
    ∃ t, exec (.byte d) s = .next t ∧ t.buf.read s.cnt.toNat = some d ∧
      (∀ a, a ≠ s.cnt.toNat → t.buf.read a = s.buf.read a) ∧
      t.sum.toNat = (s.sum.toNat + d.toNat) % 256 ∧ t.cnt.toNat = s.cnt.toNat + 1 ∧
      { t with buf := s.buf, sum := s.sum, cnt := s.cnt } = s

/-- R94: `BYTE` on a full frame sets `OVF` and changes nothing else. -/
def Obligations.ByteOverflowDropsTheByte : Prop :=
  ∀ (s : State) (d : Byte), exec (.byteOverflow d) s = .next { s with ovf := true }

/-- R93: `HEXERR` sets `HERR` and changes nothing else, whatever its data. -/
def Obligations.HexerrMarksTheLine : Prop :=
  ∀ (s : State) (d : Byte), exec (.hexerr d) s = .next { s with herr := true }

/-- R96: with `last`, the beat's own effect comes first, then `EVAL`, then `PHASE <- IDLE`. -/
def Obligations.LastEvaluatesAfterTheBeat : Prop :=
  ∀ (s t : State) (h : Bool) (d : Byte), exec (decodeBeat s.beatContext (beatWord false h d)) s = .next t →
    exec (.last h d) s = andThen (eval t) fun u => .next { u with phase := .idle }

/-- R96: a beat with `last` has its own effect, is evaluated in the same step, ends the line, and keeps what the beat
without it leaves in `CNT`, `SUM`, `MOK`, `HERR`, `OVF`, `BUF`. -/
def Obligations.LastBeatCompletesTheLine : Prop :=
  ∀ (s : State) (h : Bool) (d : Byte), s.Inv →
    ∃ t v u, exec (decodeBeat s.beatContext (beatWord false h d)) s = .next t ∧ eval t = .next v ∧
      u = { v with phase := .idle } ∧ exec (.last h d) s = .next u ∧
      u.phase = .idle ∧ u.done = true ∧ u.status.toNat ≤ 5 ∧
      u.cnt = t.cnt ∧ u.sum = t.sum ∧ u.mok = t.mok ∧ u.herr = t.herr ∧ u.ovf = t.ovf ∧ u.buf = t.buf ∧ u.feed = t.feed

/-- R90: one step on one beat, as the pseudocode of the rule has it. -/
def Obligations.StepFollowsThePseudocode : Prop :=
  ∀ (s : State) (w : BeatWord) (rest : List FeedEvent), s.feed = .beat w :: rest →
    let s₀ : State := { s with feed := rest }
    step s =
      andThen
        (if s.phase = .idle then exec (.mark (beatHexerr w) (beatData w)) s₀
         else if beatHexerr w = true then exec (.hexerr (beatData w)) s₀
         else if s.cnt.toNat = 260 then exec (.byteOverflow (beatData w)) s₀
         else exec (.byte (beatData w)) s₀)
        fun t => if beatLast w = true then andThen (eval t) fun u => .next { u with phase := .idle } else .next t

/-- A step runs the decoded instruction: the oldest beat is consumed, decoded in the context of the state it meets, and
executed; with no event the block holds its state, which is the model's choice (log 2). -/
def Obligations.StepRunsTheDecodedBeat : Prop :=
  (∀ (s : State) (w : BeatWord) (rest : List FeedEvent), s.feed = .beat w :: rest →
    step s = exec (decodeBeat s.beatContext w) { s with feed := rest }) ∧
  ∀ s : State, s.feed = [] → step s = .next s

/-- The model's own placing of a table word (log 7, log 8): the very next step runs the instruction `decodeTableWord`
reads, a beat row as the whole step, a record row as the dispatch of a frame with that header. -/
def Obligations.StepRunsThePlacedTableWord : Prop :=
  ∀ (s : State) (n w : Nat) (i : Instr), decodeTableWord n w = some i →
    (n ≤ 16 → step (s.withFetchWord n w) = exec i (s.readyForBeat (BitVec.ofNat 10 w))) ∧
    (16 < n → ∃ u : State,
      headerBytes (BitVec.ofNat 32 w) = u.frameBytes.take 4 ∧
        u.cnt.toNat = (headerLength (BitVec.ofNat 32 w)).toNat + 5 ∧ u.sum = 0 ∧ u.done = true ∧ u.ckc = u.cke ∧
        step (s.withFetchWord n w) = andThen (exec i u) fun v => .next { v with phase := .idle })

/-! ### Records -/

/-- R141: `DATA` accepts every length, has no field registers, and its payload is `BUF[4 .. 4+length-1]`. -/
def Obligations.DataAcceptsEveryLength : Prop :=
  ∀ (s : State) (l : Byte) (o : Half),
    let t : State := { s with status := 0, rtype := 0x00, len := l, offset := o, f0 := 0, f1 := 0 }
    exec (.data l o) s = .next t ∧
      ∀ (i : Nat) (b : Byte), s.done = true → i < l.toNat → s.readBuf (4 + i) = .ok b → t.payload i = b

/-- R142: `EOF` accepts an empty payload, with any offset, and nothing else. -/
def Obligations.EofAcceptsOnlyAnEmptyPayload : Prop :=
  ∀ (s : State) (l : Byte) (o : Half),
    (l.toNat = 0 → exec (.eof l o) s =
      .next { s with status := 0, rtype := 0x01, len := 0, offset := o, f0 := 0, f1 := 0 }) ∧
    (l.toNat ≠ 0 → exec (.eof l o) s =
      .next { s with status := 4, rtype := 0, len := 0, offset := 0, f0 := 0, f1 := 0 })

/-- R143: `ESA` with two payload bytes reports them big-endian in `F0`; another length is `LengthMismatch`. -/
def Obligations.EsaReportsTheSegment : Prop :=
  ∀ (s : State) (l : Byte) (o : Half),
    (∀ b₄ b₅ : Byte, l.toNat = 2 → s.readBuf 4 = .ok b₄ → s.readBuf 5 = .ok b₅ → exec (.esa l o) s =
      .next { s with status := 0, rtype := 0x02, len := 2, offset := o,
                     f0 := BitVec.ofNat 16 (b₄.toNat * 256 + b₅.toNat), f1 := 0 }) ∧
    (l.toNat ≠ 2 → exec (.esa l o) s =
      .next { s with status := 4, rtype := 0, len := 0, offset := 0, f0 := 0, f1 := 0 })

/-- R144: `SSA` with four payload bytes reports code segment and instruction pointer; another length is
`LengthMismatch`. -/
def Obligations.SsaReportsSegmentAndPointer : Prop :=
  ∀ (s : State) (l : Byte) (o : Half),
    (∀ b₄ b₅ b₆ b₇ : Byte, l.toNat = 4 → s.readBuf 4 = .ok b₄ → s.readBuf 5 = .ok b₅ → s.readBuf 6 = .ok b₆ →
      s.readBuf 7 = .ok b₇ → exec (.ssa l o) s =
      .next { s with status := 0, rtype := 0x03, len := 4, offset := o,
                     f0 := BitVec.ofNat 16 (b₄.toNat * 256 + b₅.toNat),
                     f1 := BitVec.ofNat 16 (b₆.toNat * 256 + b₇.toNat) }) ∧
    (l.toNat ≠ 4 → exec (.ssa l o) s =
      .next { s with status := 4, rtype := 0, len := 0, offset := 0, f0 := 0, f1 := 0 })

/-- R145: `ELA` with two payload bytes reports them big-endian in `F0`; another length is `LengthMismatch`. -/
def Obligations.ElaReportsTheUpperHalf : Prop :=
  ∀ (s : State) (l : Byte) (o : Half),
    (∀ b₄ b₅ : Byte, l.toNat = 2 → s.readBuf 4 = .ok b₄ → s.readBuf 5 = .ok b₅ → exec (.ela l o) s =
      .next { s with status := 0, rtype := 0x04, len := 2, offset := o,
                     f0 := BitVec.ofNat 16 (b₄.toNat * 256 + b₅.toNat), f1 := 0 }) ∧
    (l.toNat ≠ 2 → exec (.ela l o) s =
      .next { s with status := 4, rtype := 0, len := 0, offset := 0, f0 := 0, f1 := 0 })

/-- R146: `SLA` with four payload bytes reports one 32-bit big-endian address, `ADDR32`, and its halves in `F0`, `F1`;
another length is `LengthMismatch`. -/
def Obligations.SlaReportsTheAddress : Prop :=
  ∀ (s : State) (l : Byte) (o : Half),
    (∀ b₄ b₅ b₆ b₇ : Byte, l.toNat = 4 → s.readBuf 4 = .ok b₄ → s.readBuf 5 = .ok b₅ → s.readBuf 6 = .ok b₆ →
      s.readBuf 7 = .ok b₇ → ∃ t, exec (.sla l o) s = .next t ∧
        t.addr32.toNat = b₄.toNat * 2 ^ 24 + b₅.toNat * 2 ^ 16 + b₆.toNat * 2 ^ 8 + b₇.toNat ∧
        t.f0.toNat = t.addr32.toNat / 2 ^ 16 ∧ t.f1.toNat = t.addr32.toNat % 2 ^ 16 ∧
        t = { s with status := 0, rtype := 0x05, len := 4, offset := o, f0 := t.f0, f1 := t.f1 }) ∧
    (l.toNat ≠ 4 → exec (.sla l o) s =
      .next { s with status := 4, rtype := 0, len := 0, offset := 0, f0 := 0, f1 := 0 })

/-- R147: each row of an unknown tag reports `UnknownRecordType`, whatever the length, and every header whose tag is
not 0x00 to 0x05 is a word of one of these rows. -/
def Obligations.UnknownTagsAreRejected : Prop :=
  ∀ (s : State) (l tag : Byte) (o : Half),
    let t : State := { s with status := 5, rtype := 0, len := 0, offset := 0, f0 := 0, f1 := 0 }
    exec (.unknown06 l o tag) s = .next t ∧ exec (.unknown08 l o tag) s = .next t ∧
      exec (.unknown10 l o tag) s = .next t ∧ exec (.unknown20 l o tag) s = .next t ∧
      exec (.unknown40 l o tag) s = .next t ∧ exec (.unknown80 l o tag) s = .next t ∧
      ∀ h : HeaderWord, 5 < (headerTag h).toNat → exec (decodeHeader h) s = .next t

/-- R140: `DISPATCH` runs the row that the header's tag decodes to: one arm for each known tag, the unknown arm for
every other, whatever the length. -/
def Obligations.DispatchRunsTheDecodedRecord : Prop :=
  ∀ (s : State) (h : HeaderWord),
    let l := headerLength h
    let o := headerOffset h
    dispatch h s = exec (decodeHeader h) s ∧
      (headerTag h = 0x00 → dispatch h s = exec (.data l o) s) ∧
      (headerTag h = 0x01 → dispatch h s = exec (.eof l o) s) ∧
      (headerTag h = 0x02 → dispatch h s = exec (.esa l o) s) ∧
      (headerTag h = 0x03 → dispatch h s = exec (.ssa l o) s) ∧
      (headerTag h = 0x04 → dispatch h s = exec (.ela l o) s) ∧
      (headerTag h = 0x05 → dispatch h s = exec (.sla l o) s) ∧
      (5 < (headerTag h).toNat → dispatch h s =
        .next { s with status := 5, rtype := 0, len := 0, offset := 0, f0 := 0, f1 := 0 })

/-- R148: in `DISPATCH`, a known tag with another length than its width is `LengthMismatch`; Data has no such length. -/
def Obligations.WrongWidthIsLengthMismatch : Prop :=
  ∀ (s : State) (h : HeaderWord), (headerTag h).toNat ≤ 5 →
    (widthFits (headerTag h) (headerLength h).toNat = false →
      dispatch h s = .next { s with status := 4, rtype := 0, len := 0, offset := 0, f0 := 0, f1 := 0 }) ∧
    (headerTag h = 0 → ∃ t, dispatch h s = .next t ∧ t.status = 0) ∧
    ((headerTag h).toNat = 1 → (widthFits (headerTag h) (headerLength h).toNat = true ↔ (headerLength h).toNat = 0)) ∧
    ((headerTag h).toNat = 2 ∨ (headerTag h).toNat = 4 →
      (widthFits (headerTag h) (headerLength h).toNat = true ↔ (headerLength h).toNat = 2)) ∧
    ((headerTag h).toNat = 3 ∨ (headerTag h).toNat = 5 →
      (widthFits (headerTag h) (headerLength h).toNat = true ↔ (headerLength h).toNat = 4))

/-! ### Evaluation -/

/-- R126: without the marker the line is `MissingMarker`, whatever else is wrong with it. -/
def Obligations.MissingMarkerIsCheckedFirst : Prop :=
  ∀ s : State, s.mok = false →
    eval s = .next { s with done := true, status := 1, rtype := 0, len := 0, offset := 0, f0 := 0, f1 := 0 }

/-- R127: with the marker, a hex failure or an over-long line is `MalformedHex`, before the checksum. -/
def Obligations.MalformedHexIsCheckedSecond : Prop :=
  ∀ s : State, s.mok = true → s.herr = true ∨ s.ovf = true →
    eval s = .next { s with done := true, status := 2, rtype := 0, len := 0, offset := 0, f0 := 0, f1 := 0 }

/-- R128: the empty frame is `LengthMismatch`, `CKC` and `CKE` untouched. -/
def Obligations.EmptyFrameIsLengthMismatch : Prop :=
  ∀ s : State, s.mok = true → s.herr = false → s.ovf = false → s.cnt.toNat = 0 →
    eval s = .next { s with done := true, status := 4, rtype := 0, len := 0, offset := 0, f0 := 0, f1 := 0 }

/-- R114, R115: `VERIFY` records the last byte and the checksum of the others, which is that byte less `SUM`, and
reports `BadChecksum` exactly when they differ, that is when `SUM` is not zero. -/
def Obligations.VerifyComparesTheChecksums : Prop :=
  ∀ s : State, s.Inv → s.mok = true → s.herr = false → s.ovf = false → 1 ≤ s.cnt.toNat →
    ∃ e t, s.frameBytes.getLast? = some e ∧ eval s = .next t ∧ t.cke = e ∧ t.ckc = ck s.frameBytes.dropLast ∧
      ck s.frameBytes.dropLast = e - s.sum ∧ (ck s.frameBytes.dropLast = e ↔ s.sum = 0) ∧
      (t.status = 3 ↔ ck s.frameBytes.dropLast ≠ e) ∧
      (ck s.frameBytes.dropLast ≠ e →
        t = { s with done := true, ckc := ck s.frameBytes.dropLast, cke := e, status := 3,
                     rtype := 0, len := 0, offset := 0, f0 := 0, f1 := 0 })

/-- R130, R131: a frame whose checksum is right is `LengthMismatch` if it has fewer than five bytes, or if its first
byte is not the number of payload bytes. -/
def Obligations.LengthIsCheckedAfterTheChecksum : Prop :=
  ∀ (s : State) (l e : Byte), s.Inv → s.mok = true → s.herr = false → s.ovf = false → s.sum = 0 →
    s.frameBytes.head? = some l → s.frameBytes.getLast? = some e →
    (s.frameBytes.length < 5 ∨ s.frameBytes.length ≠ l.toNat + 5) →
    eval s = .next { s with done := true, ckc := e, cke := e, status := 4,
                            rtype := 0, len := 0, offset := 0, f0 := 0, f1 := 0 }

/-- R132, R133: a frame that passes checks 1 to 6 is dispatched on its fourth byte, with the header of its first four. -/
def Obligations.SoundFrameIsDispatched : Prop :=
  ∀ (s : State) (l b₁ b₂ tag e : Byte) (rest : List Byte), s.Inv → s.mok = true → s.herr = false → s.ovf = false →
    s.sum = 0 → s.frameBytes = l :: b₁ :: b₂ :: tag :: rest → rest.getLast? = some e → rest.length = l.toNat + 1 →
    eval s = exec (decodeHeader (headerWord l (b₁ ++ b₂) tag)) { s with done := true, ckc := e, cke := e }

/-- R125: `EVAL` writes `DONE`, `STATUS`, `CKC`, `CKE`, `RTYPE`, `LEN`, `OFFSET`, `F0`, `F1` and nothing else. -/
def Obligations.EvalWritesOnlyTheResult : Prop :=
  ∀ s t : State, eval s = .next t →
    t.done = true ∧
      t = { s with done := t.done, status := t.status, ckc := t.ckc, cke := t.cke, rtype := t.rtype, len := t.len,
                   offset := t.offset, f0 := t.f0, f1 := t.f1 }

/-- R125, R167: `EVAL` computes the result of the frame: of all that is wrong with a line it reports what comes first
in the document's order, and an accepted record is the one the bytes spell. -/
def Obligations.EvalComputesTheFrameResult : Prop :=
  ∀ s : State, s.Inv → s.done = false →
    ∃ t, eval s = .next t ∧ t.result = some (frameResult s.mok (s.herr || s.ovf) s.frameBytes)

/-! ### Checksum -/

/-- R110: `CK(b)` is the one byte that makes the sum a multiple of 256, and 0 for the empty sequence. -/
def Obligations.CkIsTheOneZeroingByte : Prop :=
  ck [] = 0 ∧ ∀ (b : List Byte) (v : Byte), ((b.map BitVec.toNat).sum + v.toNat) % 256 = 0 ↔ v = ck b

/-- R111 item 3: `CK` does not depend on the order of the bytes and adds over concatenation. -/
def Obligations.CkIsAdditiveAndUnordered : Prop :=
  (∀ b c : List Byte, b.Perm c → ck b = ck c) ∧
    (∀ b c : List Byte, (ck (b ++ c)).toNat = ((ck b).toNat + (ck c).toNat) % 256) ∧
    ∀ (b : List Byte) (x : Byte), ck (b ++ [x]) = ck b - x

/-- R113: `CKGEN` is the checksum of the bytes stored so far. -/
def Obligations.CkgenIsTheChecksumOfTheFrame : Prop :=
  ∀ s : State, s.Inv → s.ckgen = ck s.frameBytes ∧ (s.ckgen.toNat + s.sum.toNat) % 256 = 0

/-- R116: a sequence with its checksum appended sums to zero and has the checksum zero; in the block, after the marker,
the bytes of `b` and `CKGEN` itself, `SUM` and `CKGEN` are zero. -/
def Obligations.CkgenClosesTheFrame : Prop :=
  (∀ b : List Byte, ((b ++ [ck b]).map BitVec.toNat).sum % 256 = 0 ∧ ck (b ++ [ck b]) = 0) ∧
  ∀ (s : State) (b : List Byte), s.phase = .idle → b.length ≤ 259 →
    ∃ t u, runLine s (beatWord false false 0x3A :: b.map (beatWord false false)) = .next t ∧ t.ckgen = ck b ∧
      runLine t [beatWord false false t.ckgen] = .next u ∧ u.sum = 0 ∧ u.ckgen = 0

/-- R117: in an accepted line, changing the data of one body beat, the checksum byte included, gives `BadChecksum`. -/
def Obligations.OneChangedByteIsDetected : Prop :=
  ∀ (s t : State) (ws : List BeatWord) (i : Nat) (w w' : BeatWord), s.phase = .idle → isLine ws = true →
    runLine s ws = .next t → t.status = 0 → 1 ≤ i → ws[i]? = some w →
    beatLast w' = beatLast w → beatHexerr w' = beatHexerr w → beatData w' ≠ beatData w →
    ∃ t', runLine s (ws.set i w') = .next t' ∧ t'.done = true ∧ t'.status = 3

/-! ### The machine as a whole -/

/-- R29: the invariants hold after reset. -/
def Obligations.ResetMeetsTheInvariants : Prop := State.reset.Inv ∧ State.reset.ReportInv

/-- R29: every step keeps the invariants, whatever event it consumes. -/
def Obligations.StepKeepsTheInvariants : Prop := ∀ s t : State, s.Inv → step s = .next t → t.Inv

/-- 95_test_vectors.md section 9 items 5 to 7, from R21, R163, R166: every step keeps what a report's registers say of
one another. -/
def Obligations.StepKeepsTheReportSound : Prop :=
  ∀ s t : State, s.Inv → s.ReportInv → step s = .next t → t.ReportInv

/-- 20_memory.md R40: every step keeps `BUF` in its canonical form inside the frame space, from any state. -/
def Obligations.StepKeepsTheFrameCanonical : Prop :=
  ∀ s t : State, s.buf.wf = true → step s = .next t → t.buf.wf = true

/-- R97, R171: no step stops, whatever has been delivered, and a beat with `last` always ends its line. -/
def Obligations.StepNeverStops : Prop :=
  ∀ s : State, s.Inv → ∃ t, step s = .next t ∧
    ∀ (w : BeatWord) (rest : List FeedEvent), s.feed = .beat w :: rest → beatLast w = true →
      t.phase = .idle ∧ t.done = true ∧ t.status.toNat ≤ 5

/-- R11: how `PHASE` moves on a beat. -/
def Obligations.PhaseFollowsTheLastFlag : Prop :=
  ∀ (s t : State) (w : BeatWord) (rest : List FeedEvent), s.feed = .beat w :: rest → step s = .next t →
    t.phase = if beatLast w = true then .idle else .body

/-- R14, R15 (and R13's writer): the flags on a first beat and on a body beat, with or without `last`. -/
def Obligations.FlagsAreStickyWithinALine : Prop :=
  ∀ (s t : State) (w : BeatWord) (rest : List FeedEvent), s.feed = .beat w :: rest → step s = .next t →
    (s.phase = .idle → t.mok = decide (beatData w = 0x3A) ∧ t.herr = beatHexerr w ∧ t.ovf = false) ∧
    (s.phase = .body → t.mok = s.mok ∧ t.herr = (s.herr || beatHexerr w) ∧
      t.ovf = (s.ovf || (!beatHexerr w && decide (s.cnt.toNat = 260))))

/-- R43: a beat writes no cell of the frame space but the one at `CNT`, and that only when it stores a byte; `CNT`
starts at 0 and goes up by one with each store, so the writes of a line are sequential. -/
def Obligations.BeatWritesOnlyTheCellAtCnt : Prop :=
  ∀ (s t : State) (w : BeatWord) (rest : List FeedEvent), s.feed = .beat w :: rest → step s = .next t →
    (∀ a, t.buf.read a =
      if s.phase = .body ∧ beatHexerr w = false ∧ s.cnt.toNat < 260 ∧ a = s.cnt.toNat then some (beatData w)
      else s.buf.read a) ∧
    t.cnt.toNat =
      if s.phase = .idle then 0
      else if beatHexerr w = false ∧ s.cnt.toNat < 260 then s.cnt.toNat + 1
      else s.cnt.toNat

/-- R52: between a first beat and a last beat the result registers and `DONE` do not change. -/
def Obligations.BodyBeatKeepsTheReport : Prop :=
  ∀ (s t : State) (w : BeatWord) (rest : List FeedEvent), s.feed = .beat w :: rest → s.phase = .body →
    beatLast w = false → step s = .next t → t.report = s.report

/-- R42: below `CNT` every read is defined, at and above it none is. -/
def Obligations.ReadsAreDefinedBelowCnt : Prop :=
  ∀ (s : State) (i : Nat), s.Inv → ((∃ b, s.readBuf i = .ok b) ↔ i < s.cnt.toNat)

/-- R27: the four outputs. Outside its window `PAYLOAD` is a free value, of which nothing is said (log 5). -/
def Obligations.OutputsFollowTheRegisters : Prop :=
  ∀ s : State, s.Inv →
    s.ckgen.toNat = (256 - s.sum.toNat) % 256 ∧ s.ckgen = ck s.frameBytes ∧
      s.addr32.toNat = s.f0.toNat * 2 ^ 16 + s.f1.toNat ∧
      (s.err = true ↔ s.done = true ∧ s.status ≠ 0) ∧
      ∀ i, s.done = true → s.status = 0 → i < s.len.toNat → s.buf.read (4 + i) = some (s.payload i)

/-! ### Lines -/

/-- R28, R30: a line, whatever state it meets between lines, ends with the result that its beats alone determine. -/
def Obligations.LineEndsWithItsResult : Prop :=
  ∀ (s : State) (ws : List BeatWord), s.phase = .idle → isLine ws = true →
    ∃ t, runLine s ws = .next t ∧ t.phase = .idle ∧ t.done = true ∧ t.result = some (lineResult ws)

/-- R30, R169: two states between lines, alike in nothing, give one line the same report and the same frame. -/
def Obligations.LinesDoNotInfluenceEachOther : Prop :=
  ∀ (s₁ s₂ : State) (ws : List BeatWord), s₁.phase = .idle → s₂.phase = .idle → isLine ws = true →
    ∃ t₁ t₂, runLine s₁ ws = .next t₁ ∧ runLine s₂ ws = .next t₂ ∧ t₁.report = t₂.report ∧
      t₁.frameBytes = t₂.frameBytes

/-- R161: a line whose first character is not the marker, whatever its body, is `MissingMarker` with nothing
recorded. -/
def Obligations.LineWithoutMarkerIsMissingMarker : Prop :=
  ∀ (s : State) (w : BeatWord) (body : List BeatWord), s.phase = .idle → isLine (w :: body) = true →
    beatData w ≠ 0x3A → ∃ t, runLine s (w :: body) = .next t ∧ t.report = (true, 1, 0, 0, 0, 0, 0, 0, 0)

/-- R162: a marked line with a `hexerr` anywhere, or with more than 260 bytes, is `MalformedHex` with nothing
recorded. -/
def Obligations.BadHexAnywhereIsMalformedHex : Prop :=
  ∀ (s : State) (w : BeatWord) (body : List BeatWord), s.phase = .idle → isLine (w :: body) = true →
    beatData w = 0x3A → (∃ v ∈ w :: body, beatHexerr v = true) ∨ 260 < body.length →
    ∃ t, runLine s (w :: body) = .next t ∧ t.report = (true, 2, 0, 0, 0, 0, 0, 0, 0)

/-- R84: the canonical frame of every constructible record is decoded to that record. -/
def Obligations.CanonicalFrameRoundTrips : Prop :=
  ∀ (s : State) (r : Record), s.phase = .idle → r.constructible = true →
    ∃ t, runLine s (frameWords r.canonicalFrame) = .next t ∧ t.done = true ∧ t.status = 0 ∧ t.rtype = r.tag ∧
      t.result = some (.ok r)

/-- R65, R80: `LINE` of the canonical text line gives the beats of the canonical frame. -/
def Obligations.CanonicalLineSpellsTheFrame : Prop :=
  ∀ r : Record, lineWords r.canonicalLine = frameWords r.canonicalFrame

/-- R63 item 5, R83: the case of the hex digits makes no difference to the beats. -/
def Obligations.LetterCaseMakesNoDifference : Prop :=
  ∀ (c : Byte) (body : List Byte), lineWords (c :: body.map upperCase) = lineWords (c :: body)

/-! ### Encoding -/

/-- R60, R61, R69: decoding an encoded well-formed instruction, in each context its row stands in, gives it back. -/
def Obligations.DecodeOfEncodeIsTheInstruction : Prop :=
  ∀ (i : Instr) (c : BeatContext), i.wellFormed = true → i.admits c = true → decode c i.bits (encode i) = .instr i

/-- R60, R69: every beat word and every header word is a word of the instruction it decodes to. -/
def Obligations.EncodeOfDecodeIsTheWord : Prop :=
  (∀ (c : BeatContext) (w : BeatWord), (decodeBeat c w).wellFormed = true ∧ (decodeBeat c w).admits c = true ∧
    (decodeBeat c w).bits = 10 ∧ encode (decodeBeat c w) = w.toNat) ∧
  ∀ h : HeaderWord, (decodeHeader h).wellFormed = true ∧ (decodeHeader h).bits = 32 ∧
    encode (decodeHeader h) = h.toNat

/-- R61, R64, R69: words written out from the tables of 30_encoding.md. -/
def Obligations.SampleWordsDecode : Prop :=
  decodeBeat .idle 0b0000111010 = .mark false 0x3A ∧
    decodeBeat .idle 0b0100111010 = .mark true 0x3A ∧
    decodeBeat .bodyRoom 0b0000001011 = .byte 0x0B ∧
    decodeBeat .bodyFull 0b0001010101 = .byteOverflow 0x55 ∧
    decodeBeat .bodyRoom 0b0110101011 = .hexerr 0xAB ∧
    decodeBeat .bodyRoom 0b1010100111 = .last false 0xA7 ∧
    decodeHeader 0x0B001000 = .data 0x0B 0x0010 ∧
    decodeHeader 0x02000002 = .esa 0x02 0x0000 ∧
    decodeHeader 0x00123401 = .eof 0x00 0x1234 ∧
    decodeHeader 0x02000006 = .unknown06 0x02 0x0000 0x06
end

