-- ==== Sys2Proof/Laws/Checksum.lean ====
section
/-! SUPPORT. The arithmetic of the checksum primitive (41_checksum.md R110, R111, R115). -/

namespace Sys2Proof.Machine

@[simp] theorem byteSum_nil : byteSum [] = 0 := rfl

@[simp] theorem byteSum_cons (b : Byte) (bs : List Byte) : byteSum (b :: bs) = b + byteSum bs := rfl

@[simp] theorem byteSum_append (bs cs : List Byte) : byteSum (bs ++ cs) = byteSum bs + byteSum cs := by
  induction bs with
  | nil => simp
  | cons b bs ih => simp [ih, BitVec.add_assoc]

/-- The 8-bit sum is the sum of the numbers modulo 256 (R111 item 1). -/
theorem byteSum_toNat (bs : List Byte) : (byteSum bs).toNat = (bs.map BitVec.toNat).sum % 256 := by
  induction bs with
  | nil => rfl
  | cons b bs ih => simp [BitVec.toNat_add, ih]

/-- The sum does not depend on the order of the bytes (R111 item 3). -/
theorem byteSum_perm {bs cs : List Byte} (h : bs.Perm cs) : byteSum bs = byteSum cs := by
  induction h with
  | nil => rfl
  | cons b _ ih => simp [ih]
  | swap b c _ => simp only [byteSum_cons]; rw [← BitVec.add_assoc, ← BitVec.add_assoc, BitVec.add_comm c b]
  | trans _ _ ih₁ ih₂ => exact ih₁.trans ih₂

/-- A sequence that ends in `e` splits its sum (R114). -/
theorem byteSum_dropLast_add {bs : List Byte} {e : Byte} (h : bs.getLast? = some e) :
    byteSum bs = byteSum bs.dropLast + e := by
  obtain ⟨ys, rfl⟩ := List.getLast?_eq_some_iff.mp h
  simp

/-- `computed` by the formula with `SUM` is the checksum of all bytes but the last (R114). -/
theorem computedChecksum_eq_ck {bs : List Byte} {e : Byte} (h : bs.getLast? = some e) :
    computedChecksum e (byteSum bs) = ck bs.dropLast := by
  rw [byteSum_dropLast_add h]
  simp only [computedChecksum, ck]
  bv_omega

/-- The zero test (R115). -/
theorem computedChecksum_eq_iff (e sum : Byte) : computedChecksum e sum = e ↔ sum = 0 := by
  simp only [computedChecksum]
  constructor <;> intro h <;> bv_omega

/-- Changing one byte changes the sum (R117). -/
theorem byteSum_set_ne {bs : List Byte} {i : Nat} {x : Byte} (hi : i < bs.length) (hx : bs[i] ≠ x) :
    byteSum (bs.set i x) ≠ byteSum bs := by
  induction bs generalizing i with
  | nil => simp at hi
  | cons b bs ih =>
    cases i with
    | zero =>
      intro h
      simp only [List.set_cons_zero, byteSum_cons] at h
      exact hx (by simp only [List.getElem_cons_zero]; bv_omega)
    | succ i =>
      intro h
      simp only [List.set_cons_succ, byteSum_cons] at h
      exact ih (by simpa using hi) (by simpa using hx) (by bv_omega)

end Sys2Proof.Machine
end

