-- ==== Sys2Proof/Laws/Decode.lean ====
section
/-! SUPPORT. The fields of a code word and the word of its fields (30_encoding.md R60, R69). -/

namespace Sys2Proof

theorem beatWord_toNat (l h : Bool) (d : Byte) :
    (beatWord l h d).toNat = l.toNat * 512 + h.toNat * 256 + d.toNat := by
  rw [beatWord, BitVec.toNat_append, BitVec.toNat_append, ← Nat.shiftLeft_add_eq_or_of_lt d.isLt,
    ← Nat.shiftLeft_add_eq_or_of_lt (by have := d.isLt; cases h <;> simp <;> omega)]
  cases l <;> cases h <;> simp [← Nat.add_assoc]

@[simp] theorem beatData_beatWord (l h : Bool) (d : Byte) : beatData (beatWord l h d) = d := by
  apply BitVec.eq_of_toNat_eq
  rw [beatData, BitVec.extractLsb'_toNat, beatWord_toNat]
  simp only [Nat.shiftRight_zero]
  omega

@[simp] theorem beatHexerr_beatWord (l h : Bool) (d : Byte) : beatHexerr (beatWord l h d) = h := by
  rw [beatHexerr, BitVec.getLsbD, beatWord_toNat, Nat.testBit_eq_decide_div_mod_eq]
  have := d.isLt
  cases l <;> cases h <;> simp <;> omega

@[simp] theorem beatLast_beatWord (l h : Bool) (d : Byte) : beatLast (beatWord l h d) = l := by
  rw [beatLast, BitVec.getLsbD, beatWord_toNat, Nat.testBit_eq_decide_div_mod_eq]
  have := d.isLt
  cases l <;> cases h <;> simp <;> omega

/-- A beat word is the word of its three fields. -/
@[simp] theorem beatWord_fields (w : BeatWord) : beatWord (beatLast w) (beatHexerr w) (beatData w) = w := by
  apply BitVec.eq_of_toNat_eq
  have hd : (beatData w).toNat = w.toNat % 256 := by simp [beatData, BitVec.extractLsb'_toNat]
  rw [beatWord_toNat, hd, beatLast, beatHexerr, BitVec.getLsbD, BitVec.getLsbD, Nat.testBit_eq_decide_div_mod_eq,
    Nat.testBit_eq_decide_div_mod_eq]
  have hw := w.isLt
  by_cases h9 : w.toNat / 2 ^ 9 % 2 = 1 <;> by_cases h8 : w.toNat / 2 ^ 8 % 2 = 1 <;>
    simp only [h9, h8, decide_true, decide_false, Bool.toNat_true, Bool.toNat_false] <;> omega

/-- Decode of a word of three fields (30_encoding.md R61). -/
theorem decodeBeat_beatWord (c : BeatContext) (l h : Bool) (d : Byte) :
    decodeBeat c (beatWord l h d) =
      if l then .last h d
      else match c with
        | .idle => .mark h d
        | .bodyRoom => if h then .hexerr d else .byte d
        | .bodyFull => if h then .hexerr d else .byteOverflow d := by
  cases l <;> cases c <;> cases h <;> simp [decodeBeat]

/-- Decode of a beat word's number. -/
theorem decode_beat (c : BeatContext) (w : BeatWord) : decode c 10 w.toNat = .instr (decodeBeat c w) := by
  have := w.isLt
  simp [decode, this]

/-- Decode of a header word's number. -/
theorem decode_header (c : BeatContext) (h : HeaderWord) : decode c 32 h.toNat = .instr (decodeHeader h) := by
  have := h.isLt
  simp [decode, this]

theorem headerWord_toNat (l : Byte) (o : Half) (t : Byte) :
    (headerWord l o t).toNat = l.toNat * 16777216 + o.toNat * 256 + t.toNat := by
  rw [headerWord, BitVec.toNat_append, BitVec.toNat_append, ← Nat.shiftLeft_add_eq_or_of_lt t.isLt,
    ← Nat.shiftLeft_add_eq_or_of_lt (by have := t.isLt; have := o.isLt; rw [Nat.shiftLeft_eq]; omega),
    Nat.shiftLeft_eq, Nat.shiftLeft_eq]
  omega

theorem headerLength_toNat (h : HeaderWord) : (headerLength h).toNat = h.toNat / 16777216 := by
  simp only [headerLength, BitVec.extractLsb'_toNat, Nat.shiftRight_eq_div_pow]
  omega

theorem headerOffset_toNat (h : HeaderWord) : (headerOffset h).toNat = h.toNat / 256 % 65536 := by
  simp [headerOffset, BitVec.extractLsb'_toNat, Nat.shiftRight_eq_div_pow]

theorem headerTag_toNat (h : HeaderWord) : (headerTag h).toNat = h.toNat % 256 := by
  simp [headerTag, BitVec.extractLsb'_toNat]

@[simp] theorem headerLength_headerWord (l : Byte) (o : Half) (t : Byte) : headerLength (headerWord l o t) = l := by
  apply BitVec.eq_of_toNat_eq
  rw [headerLength_toNat, headerWord_toNat]
  omega

@[simp] theorem headerOffset_headerWord (l : Byte) (o : Half) (t : Byte) : headerOffset (headerWord l o t) = o := by
  apply BitVec.eq_of_toNat_eq
  rw [headerOffset_toNat, headerWord_toNat]
  omega

@[simp] theorem headerTag_headerWord (l : Byte) (o : Half) (t : Byte) : headerTag (headerWord l o t) = t := by
  apply BitVec.eq_of_toNat_eq
  rw [headerTag_toNat, headerWord_toNat]
  omega

/-- A header word is the word of its three fields. -/
@[simp] theorem headerWord_fields (h : HeaderWord) : headerWord (headerLength h) (headerOffset h) (headerTag h) = h := by
  apply BitVec.eq_of_toNat_eq
  rw [headerWord_toNat, headerLength_toNat, headerOffset_toNat, headerTag_toNat]
  omega

end Sys2Proof
end

