-- ==== Sys2Proof/Laws/Memory.lean ====
section
/-! SUPPORT. The laws of the frame buffer: a read after a write, and that a write keeps the canonical form. -/

namespace Sys2Proof.Machine

@[simp] theorem Memory.read_nil (i : Nat) : Memory.read [] i = none := rfl

theorem Memory.read_cons (a : Nat) (b : Byte) (m : Memory) (i : Nat) :
    Memory.read ((a, b) :: m) i = if i = a then some b else Memory.read m i := rfl

/-- The cell just written reads as the byte written. -/
@[simp] theorem Memory.read_write_same (m : Memory) (i : Nat) (v : Byte) : (m.write i v).read i = some v := by
  induction m with
  | nil => simp [Memory.write, Memory.read_cons]
  | cons c rest ih =>
    obtain ⟨a, b⟩ := c
    by_cases hlt : i < a
    · simp [Memory.write, hlt, Memory.read_cons]
    · by_cases heq : i = a
      · simp [Memory.write, heq, Memory.read_cons]
      · simp [Memory.write, hlt, heq, Memory.read_cons, ih]

/-- Every other cell reads as before. -/
theorem Memory.read_write_other (m : Memory) {i j : Nat} (v : Byte) (h : j ≠ i) : (m.write i v).read j = m.read j := by
  induction m with
  | nil => simp [Memory.write, Memory.read_cons, h]
  | cons c rest ih =>
    obtain ⟨a, b⟩ := c
    by_cases hlt : i < a
    · simp [Memory.write, hlt, Memory.read_cons, h]
    · by_cases heq : i = a
      · subst heq
        simp [Memory.write, Memory.read_cons, h]
      · simp [Memory.write, hlt, heq, Memory.read_cons, ih]

theorem Memory.read_write (m : Memory) (i j : Nat) (v : Byte) :
    (m.write i v).read j = if j = i then some v else m.read j := by
  by_cases h : j = i
  · simp [h]
  · simp [h, Memory.read_write_other m v h]

/-- A write keeps the addresses rising. -/
theorem Memory.rising_write (m : Memory) (low i : Nat) (v : Byte) (hlow : low ≤ i) (h : m.rising low = true) :
    (m.write i v).rising low = true := by
  induction m generalizing low with
  | nil => simp [Memory.write, Memory.rising, hlow]
  | cons c rest ih =>
    obtain ⟨a, b⟩ := c
    simp only [Memory.rising, Bool.and_eq_true, decide_eq_true_eq] at h
    by_cases hlt : i < a
    · simp only [Memory.write, hlt, if_true, Memory.rising, Bool.and_eq_true, decide_eq_true_eq]
      exact ⟨hlow, by omega, h.2⟩
    · by_cases heq : i = a
      · subst heq
        simp [Memory.write, Memory.rising, hlow, h.2]
      · simp only [Memory.write, hlt, heq, if_false, Memory.rising, Bool.and_eq_true, decide_eq_true_eq]
        exact ⟨h.1, ih (a + 1) (by omega) h.2⟩

/-- A write at a frame address keeps every cell in the frame space. -/
theorem Memory.inFrame_write (m : Memory) (i : Nat) (v : Byte) (hi : i < Config.maxFrame) (h : m.inFrame = true) :
    (m.write i v).inFrame = true := by
  induction m with
  | nil => simp [Memory.write, Memory.inFrame, hi]
  | cons c rest ih =>
    obtain ⟨a, b⟩ := c
    simp only [Memory.inFrame, Bool.and_eq_true, decide_eq_true_eq] at h
    by_cases hlt : i < a
    · simp [Memory.write, hlt, Memory.inFrame, hi, h]
    · by_cases heq : i = a
      · simp [Memory.write, heq, Memory.inFrame, h]
      · simp [Memory.write, hlt, heq, Memory.inFrame, h.1, ih h.2]

/-- The one write there is keeps the canonical form. -/
theorem Memory.wf_write (m : Memory) (i : Nat) (v : Byte) (hi : i < Config.maxFrame) (h : m.wf = true) :
    (m.write i v).wf = true := by
  simp only [Memory.wf, Bool.and_eq_true] at h ⊢
  exact ⟨Memory.rising_write m 0 i v (Nat.zero_le i) h.1, Memory.inFrame_write m i v hi h.2⟩

end Sys2Proof.Machine
end

