-- ==== Sys2Proof/Laws/State.lean ====
section
/-! SUPPORT. What each named update of State leaves in each field: one lemma per field per update. -/

namespace Sys2Proof.Machine

@[simp] theorem State.withFeed_phase (s : State) (q : List FeedEvent) : (s.withFeed q).phase = s.phase := rfl
@[simp] theorem State.withFeed_mok (s : State) (q : List FeedEvent) : (s.withFeed q).mok = s.mok := rfl
@[simp] theorem State.withFeed_herr (s : State) (q : List FeedEvent) : (s.withFeed q).herr = s.herr := rfl
@[simp] theorem State.withFeed_ovf (s : State) (q : List FeedEvent) : (s.withFeed q).ovf = s.ovf := rfl
@[simp] theorem State.withFeed_cnt (s : State) (q : List FeedEvent) : (s.withFeed q).cnt = s.cnt := rfl
@[simp] theorem State.withFeed_sum (s : State) (q : List FeedEvent) : (s.withFeed q).sum = s.sum := rfl
@[simp] theorem State.withFeed_buf (s : State) (q : List FeedEvent) : (s.withFeed q).buf = s.buf := rfl
@[simp] theorem State.withFeed_done (s : State) (q : List FeedEvent) : (s.withFeed q).done = s.done := rfl
@[simp] theorem State.withFeed_status (s : State) (q : List FeedEvent) : (s.withFeed q).status = s.status := rfl
@[simp] theorem State.withFeed_ckc (s : State) (q : List FeedEvent) : (s.withFeed q).ckc = s.ckc := rfl
@[simp] theorem State.withFeed_cke (s : State) (q : List FeedEvent) : (s.withFeed q).cke = s.cke := rfl
@[simp] theorem State.withFeed_rtype (s : State) (q : List FeedEvent) : (s.withFeed q).rtype = s.rtype := rfl
@[simp] theorem State.withFeed_len (s : State) (q : List FeedEvent) : (s.withFeed q).len = s.len := rfl
@[simp] theorem State.withFeed_offset (s : State) (q : List FeedEvent) : (s.withFeed q).offset = s.offset := rfl
@[simp] theorem State.withFeed_f0 (s : State) (q : List FeedEvent) : (s.withFeed q).f0 = s.f0 := rfl
@[simp] theorem State.withFeed_f1 (s : State) (q : List FeedEvent) : (s.withFeed q).f1 = s.f1 := rfl
@[simp] theorem State.withFeed_feed (s : State) (q : List FeedEvent) : (s.withFeed q).feed = q := rfl

@[simp] theorem State.resetRegisters_phase (s : State) : (s.resetRegisters).phase = State.reset.phase := rfl
@[simp] theorem State.resetRegisters_mok (s : State) : (s.resetRegisters).mok = State.reset.mok := rfl
@[simp] theorem State.resetRegisters_herr (s : State) : (s.resetRegisters).herr = State.reset.herr := rfl
@[simp] theorem State.resetRegisters_ovf (s : State) : (s.resetRegisters).ovf = State.reset.ovf := rfl
@[simp] theorem State.resetRegisters_cnt (s : State) : (s.resetRegisters).cnt = State.reset.cnt := rfl
@[simp] theorem State.resetRegisters_sum (s : State) : (s.resetRegisters).sum = State.reset.sum := rfl
@[simp] theorem State.resetRegisters_buf (s : State) : (s.resetRegisters).buf = State.reset.buf := rfl
@[simp] theorem State.resetRegisters_done (s : State) : (s.resetRegisters).done = State.reset.done := rfl
@[simp] theorem State.resetRegisters_status (s : State) : (s.resetRegisters).status = State.reset.status := rfl
@[simp] theorem State.resetRegisters_ckc (s : State) : (s.resetRegisters).ckc = State.reset.ckc := rfl
@[simp] theorem State.resetRegisters_cke (s : State) : (s.resetRegisters).cke = State.reset.cke := rfl
@[simp] theorem State.resetRegisters_rtype (s : State) : (s.resetRegisters).rtype = State.reset.rtype := rfl
@[simp] theorem State.resetRegisters_len (s : State) : (s.resetRegisters).len = State.reset.len := rfl
@[simp] theorem State.resetRegisters_offset (s : State) : (s.resetRegisters).offset = State.reset.offset := rfl
@[simp] theorem State.resetRegisters_f0 (s : State) : (s.resetRegisters).f0 = State.reset.f0 := rfl
@[simp] theorem State.resetRegisters_f1 (s : State) : (s.resetRegisters).f1 = State.reset.f1 := rfl
@[simp] theorem State.resetRegisters_feed (s : State) : (s.resetRegisters).feed = s.feed := rfl

@[simp] theorem State.startLine_phase (s : State) (h : Bool) (d : Byte) : (s.startLine h d).phase = .body := rfl
@[simp] theorem State.startLine_mok (s : State) (h : Bool) (d : Byte) : (s.startLine h d).mok = markerOk d := rfl
@[simp] theorem State.startLine_herr (s : State) (h : Bool) (d : Byte) : (s.startLine h d).herr = h := rfl
@[simp] theorem State.startLine_ovf (s : State) (h : Bool) (d : Byte) : (s.startLine h d).ovf = false := rfl
@[simp] theorem State.startLine_cnt (s : State) (h : Bool) (d : Byte) : (s.startLine h d).cnt = 0 := rfl
@[simp] theorem State.startLine_sum (s : State) (h : Bool) (d : Byte) : (s.startLine h d).sum = 0 := rfl
@[simp] theorem State.startLine_buf (s : State) (h : Bool) (d : Byte) : (s.startLine h d).buf = s.buf := rfl
@[simp] theorem State.startLine_done (s : State) (h : Bool) (d : Byte) : (s.startLine h d).done = false := rfl
@[simp] theorem State.startLine_status (s : State) (h : Bool) (d : Byte) : (s.startLine h d).status = 0 := rfl
@[simp] theorem State.startLine_ckc (s : State) (h : Bool) (d : Byte) : (s.startLine h d).ckc = 0 := rfl
@[simp] theorem State.startLine_cke (s : State) (h : Bool) (d : Byte) : (s.startLine h d).cke = 0 := rfl
@[simp] theorem State.startLine_rtype (s : State) (h : Bool) (d : Byte) : (s.startLine h d).rtype = 0 := rfl
@[simp] theorem State.startLine_len (s : State) (h : Bool) (d : Byte) : (s.startLine h d).len = 0 := rfl
@[simp] theorem State.startLine_offset (s : State) (h : Bool) (d : Byte) : (s.startLine h d).offset = 0 := rfl
@[simp] theorem State.startLine_f0 (s : State) (h : Bool) (d : Byte) : (s.startLine h d).f0 = 0 := rfl
@[simp] theorem State.startLine_f1 (s : State) (h : Bool) (d : Byte) : (s.startLine h d).f1 = 0 := rfl
@[simp] theorem State.startLine_feed (s : State) (h : Bool) (d : Byte) : (s.startLine h d).feed = s.feed := rfl

@[simp] theorem State.appendByte_phase (s : State) (d : Byte) : (s.appendByte d).phase = s.phase := rfl
@[simp] theorem State.appendByte_mok (s : State) (d : Byte) : (s.appendByte d).mok = s.mok := rfl
@[simp] theorem State.appendByte_herr (s : State) (d : Byte) : (s.appendByte d).herr = s.herr := rfl
@[simp] theorem State.appendByte_ovf (s : State) (d : Byte) : (s.appendByte d).ovf = s.ovf := rfl
@[simp] theorem State.appendByte_cnt (s : State) (d : Byte) : (s.appendByte d).cnt = s.cnt + 1 := rfl
@[simp] theorem State.appendByte_sum (s : State) (d : Byte) : (s.appendByte d).sum = accumulate s.sum d := rfl
@[simp] theorem State.appendByte_buf (s : State) (d : Byte) : (s.appendByte d).buf = s.buf.write s.cnt.toNat d := rfl
@[simp] theorem State.appendByte_done (s : State) (d : Byte) : (s.appendByte d).done = s.done := rfl
@[simp] theorem State.appendByte_status (s : State) (d : Byte) : (s.appendByte d).status = s.status := rfl
@[simp] theorem State.appendByte_ckc (s : State) (d : Byte) : (s.appendByte d).ckc = s.ckc := rfl
@[simp] theorem State.appendByte_cke (s : State) (d : Byte) : (s.appendByte d).cke = s.cke := rfl
@[simp] theorem State.appendByte_rtype (s : State) (d : Byte) : (s.appendByte d).rtype = s.rtype := rfl
@[simp] theorem State.appendByte_len (s : State) (d : Byte) : (s.appendByte d).len = s.len := rfl
@[simp] theorem State.appendByte_offset (s : State) (d : Byte) : (s.appendByte d).offset = s.offset := rfl
@[simp] theorem State.appendByte_f0 (s : State) (d : Byte) : (s.appendByte d).f0 = s.f0 := rfl
@[simp] theorem State.appendByte_f1 (s : State) (d : Byte) : (s.appendByte d).f1 = s.f1 := rfl
@[simp] theorem State.appendByte_feed (s : State) (d : Byte) : (s.appendByte d).feed = s.feed := rfl

@[simp] theorem State.dropByte_phase (s : State) : (s.dropByte).phase = s.phase := rfl
@[simp] theorem State.dropByte_mok (s : State) : (s.dropByte).mok = s.mok := rfl
@[simp] theorem State.dropByte_herr (s : State) : (s.dropByte).herr = s.herr := rfl
@[simp] theorem State.dropByte_ovf (s : State) : (s.dropByte).ovf = true := rfl
@[simp] theorem State.dropByte_cnt (s : State) : (s.dropByte).cnt = s.cnt := rfl
@[simp] theorem State.dropByte_sum (s : State) : (s.dropByte).sum = s.sum := rfl
@[simp] theorem State.dropByte_buf (s : State) : (s.dropByte).buf = s.buf := rfl
@[simp] theorem State.dropByte_done (s : State) : (s.dropByte).done = s.done := rfl
@[simp] theorem State.dropByte_status (s : State) : (s.dropByte).status = s.status := rfl
@[simp] theorem State.dropByte_ckc (s : State) : (s.dropByte).ckc = s.ckc := rfl
@[simp] theorem State.dropByte_cke (s : State) : (s.dropByte).cke = s.cke := rfl
@[simp] theorem State.dropByte_rtype (s : State) : (s.dropByte).rtype = s.rtype := rfl
@[simp] theorem State.dropByte_len (s : State) : (s.dropByte).len = s.len := rfl
@[simp] theorem State.dropByte_offset (s : State) : (s.dropByte).offset = s.offset := rfl
@[simp] theorem State.dropByte_f0 (s : State) : (s.dropByte).f0 = s.f0 := rfl
@[simp] theorem State.dropByte_f1 (s : State) : (s.dropByte).f1 = s.f1 := rfl
@[simp] theorem State.dropByte_feed (s : State) : (s.dropByte).feed = s.feed := rfl

@[simp] theorem State.noteHexerr_phase (s : State) : (s.noteHexerr).phase = s.phase := rfl
@[simp] theorem State.noteHexerr_mok (s : State) : (s.noteHexerr).mok = s.mok := rfl
@[simp] theorem State.noteHexerr_herr (s : State) : (s.noteHexerr).herr = true := rfl
@[simp] theorem State.noteHexerr_ovf (s : State) : (s.noteHexerr).ovf = s.ovf := rfl
@[simp] theorem State.noteHexerr_cnt (s : State) : (s.noteHexerr).cnt = s.cnt := rfl
@[simp] theorem State.noteHexerr_sum (s : State) : (s.noteHexerr).sum = s.sum := rfl
@[simp] theorem State.noteHexerr_buf (s : State) : (s.noteHexerr).buf = s.buf := rfl
@[simp] theorem State.noteHexerr_done (s : State) : (s.noteHexerr).done = s.done := rfl
@[simp] theorem State.noteHexerr_status (s : State) : (s.noteHexerr).status = s.status := rfl
@[simp] theorem State.noteHexerr_ckc (s : State) : (s.noteHexerr).ckc = s.ckc := rfl
@[simp] theorem State.noteHexerr_cke (s : State) : (s.noteHexerr).cke = s.cke := rfl
@[simp] theorem State.noteHexerr_rtype (s : State) : (s.noteHexerr).rtype = s.rtype := rfl
@[simp] theorem State.noteHexerr_len (s : State) : (s.noteHexerr).len = s.len := rfl
@[simp] theorem State.noteHexerr_offset (s : State) : (s.noteHexerr).offset = s.offset := rfl
@[simp] theorem State.noteHexerr_f0 (s : State) : (s.noteHexerr).f0 = s.f0 := rfl
@[simp] theorem State.noteHexerr_f1 (s : State) : (s.noteHexerr).f1 = s.f1 := rfl
@[simp] theorem State.noteHexerr_feed (s : State) : (s.noteHexerr).feed = s.feed := rfl

@[simp] theorem State.markDone_phase (s : State) : (s.markDone).phase = s.phase := rfl
@[simp] theorem State.markDone_mok (s : State) : (s.markDone).mok = s.mok := rfl
@[simp] theorem State.markDone_herr (s : State) : (s.markDone).herr = s.herr := rfl
@[simp] theorem State.markDone_ovf (s : State) : (s.markDone).ovf = s.ovf := rfl
@[simp] theorem State.markDone_cnt (s : State) : (s.markDone).cnt = s.cnt := rfl
@[simp] theorem State.markDone_sum (s : State) : (s.markDone).sum = s.sum := rfl
@[simp] theorem State.markDone_buf (s : State) : (s.markDone).buf = s.buf := rfl
@[simp] theorem State.markDone_done (s : State) : (s.markDone).done = true := rfl
@[simp] theorem State.markDone_status (s : State) : (s.markDone).status = s.status := rfl
@[simp] theorem State.markDone_ckc (s : State) : (s.markDone).ckc = s.ckc := rfl
@[simp] theorem State.markDone_cke (s : State) : (s.markDone).cke = s.cke := rfl
@[simp] theorem State.markDone_rtype (s : State) : (s.markDone).rtype = s.rtype := rfl
@[simp] theorem State.markDone_len (s : State) : (s.markDone).len = s.len := rfl
@[simp] theorem State.markDone_offset (s : State) : (s.markDone).offset = s.offset := rfl
@[simp] theorem State.markDone_f0 (s : State) : (s.markDone).f0 = s.f0 := rfl
@[simp] theorem State.markDone_f1 (s : State) : (s.markDone).f1 = s.f1 := rfl
@[simp] theorem State.markDone_feed (s : State) : (s.markDone).feed = s.feed := rfl

@[simp] theorem State.recordChecksums_phase (s : State) (c e : Byte) : (s.recordChecksums c e).phase = s.phase := rfl
@[simp] theorem State.recordChecksums_mok (s : State) (c e : Byte) : (s.recordChecksums c e).mok = s.mok := rfl
@[simp] theorem State.recordChecksums_herr (s : State) (c e : Byte) : (s.recordChecksums c e).herr = s.herr := rfl
@[simp] theorem State.recordChecksums_ovf (s : State) (c e : Byte) : (s.recordChecksums c e).ovf = s.ovf := rfl
@[simp] theorem State.recordChecksums_cnt (s : State) (c e : Byte) : (s.recordChecksums c e).cnt = s.cnt := rfl
@[simp] theorem State.recordChecksums_sum (s : State) (c e : Byte) : (s.recordChecksums c e).sum = s.sum := rfl
@[simp] theorem State.recordChecksums_buf (s : State) (c e : Byte) : (s.recordChecksums c e).buf = s.buf := rfl
@[simp] theorem State.recordChecksums_done (s : State) (c e : Byte) : (s.recordChecksums c e).done = s.done := rfl
@[simp] theorem State.recordChecksums_status (s : State) (c e : Byte) : (s.recordChecksums c e).status = s.status := rfl
@[simp] theorem State.recordChecksums_ckc (s : State) (c e : Byte) : (s.recordChecksums c e).ckc = c := rfl
@[simp] theorem State.recordChecksums_cke (s : State) (c e : Byte) : (s.recordChecksums c e).cke = e := rfl
@[simp] theorem State.recordChecksums_rtype (s : State) (c e : Byte) : (s.recordChecksums c e).rtype = s.rtype := rfl
@[simp] theorem State.recordChecksums_len (s : State) (c e : Byte) : (s.recordChecksums c e).len = s.len := rfl
@[simp] theorem State.recordChecksums_offset (s : State) (c e : Byte) : (s.recordChecksums c e).offset = s.offset := rfl
@[simp] theorem State.recordChecksums_f0 (s : State) (c e : Byte) : (s.recordChecksums c e).f0 = s.f0 := rfl
@[simp] theorem State.recordChecksums_f1 (s : State) (c e : Byte) : (s.recordChecksums c e).f1 = s.f1 := rfl
@[simp] theorem State.recordChecksums_feed (s : State) (c e : Byte) : (s.recordChecksums c e).feed = s.feed := rfl

@[simp] theorem State.reportError_phase (s : State) (e : ParseError) : (s.reportError e).phase = s.phase := rfl
@[simp] theorem State.reportError_mok (s : State) (e : ParseError) : (s.reportError e).mok = s.mok := rfl
@[simp] theorem State.reportError_herr (s : State) (e : ParseError) : (s.reportError e).herr = s.herr := rfl
@[simp] theorem State.reportError_ovf (s : State) (e : ParseError) : (s.reportError e).ovf = s.ovf := rfl
@[simp] theorem State.reportError_cnt (s : State) (e : ParseError) : (s.reportError e).cnt = s.cnt := rfl
@[simp] theorem State.reportError_sum (s : State) (e : ParseError) : (s.reportError e).sum = s.sum := rfl
@[simp] theorem State.reportError_buf (s : State) (e : ParseError) : (s.reportError e).buf = s.buf := rfl
@[simp] theorem State.reportError_done (s : State) (e : ParseError) : (s.reportError e).done = s.done := rfl
@[simp] theorem State.reportError_status (s : State) (e : ParseError) : (s.reportError e).status = e.code := rfl
@[simp] theorem State.reportError_ckc (s : State) (e : ParseError) : (s.reportError e).ckc = s.ckc := rfl
@[simp] theorem State.reportError_cke (s : State) (e : ParseError) : (s.reportError e).cke = s.cke := rfl
@[simp] theorem State.reportError_rtype (s : State) (e : ParseError) : (s.reportError e).rtype = 0 := rfl
@[simp] theorem State.reportError_len (s : State) (e : ParseError) : (s.reportError e).len = 0 := rfl
@[simp] theorem State.reportError_offset (s : State) (e : ParseError) : (s.reportError e).offset = 0 := rfl
@[simp] theorem State.reportError_f0 (s : State) (e : ParseError) : (s.reportError e).f0 = 0 := rfl
@[simp] theorem State.reportError_f1 (s : State) (e : ParseError) : (s.reportError e).f1 = 0 := rfl
@[simp] theorem State.reportError_feed (s : State) (e : ParseError) : (s.reportError e).feed = s.feed := rfl

@[simp] theorem State.reportRecord_phase (s : State) (r l : Byte) (o a b : Half) : (s.reportRecord r l o a b).phase = s.phase := rfl
@[simp] theorem State.reportRecord_mok (s : State) (r l : Byte) (o a b : Half) : (s.reportRecord r l o a b).mok = s.mok := rfl
@[simp] theorem State.reportRecord_herr (s : State) (r l : Byte) (o a b : Half) : (s.reportRecord r l o a b).herr = s.herr := rfl
@[simp] theorem State.reportRecord_ovf (s : State) (r l : Byte) (o a b : Half) : (s.reportRecord r l o a b).ovf = s.ovf := rfl
@[simp] theorem State.reportRecord_cnt (s : State) (r l : Byte) (o a b : Half) : (s.reportRecord r l o a b).cnt = s.cnt := rfl
@[simp] theorem State.reportRecord_sum (s : State) (r l : Byte) (o a b : Half) : (s.reportRecord r l o a b).sum = s.sum := rfl
@[simp] theorem State.reportRecord_buf (s : State) (r l : Byte) (o a b : Half) : (s.reportRecord r l o a b).buf = s.buf := rfl
@[simp] theorem State.reportRecord_done (s : State) (r l : Byte) (o a b : Half) : (s.reportRecord r l o a b).done = s.done := rfl
@[simp] theorem State.reportRecord_status (s : State) (r l : Byte) (o a b : Half) : (s.reportRecord r l o a b).status = 0 := rfl
@[simp] theorem State.reportRecord_ckc (s : State) (r l : Byte) (o a b : Half) : (s.reportRecord r l o a b).ckc = s.ckc := rfl
@[simp] theorem State.reportRecord_cke (s : State) (r l : Byte) (o a b : Half) : (s.reportRecord r l o a b).cke = s.cke := rfl
@[simp] theorem State.reportRecord_rtype (s : State) (r l : Byte) (o a b : Half) : (s.reportRecord r l o a b).rtype = r := rfl
@[simp] theorem State.reportRecord_len (s : State) (r l : Byte) (o a b : Half) : (s.reportRecord r l o a b).len = l := rfl
@[simp] theorem State.reportRecord_offset (s : State) (r l : Byte) (o a b : Half) : (s.reportRecord r l o a b).offset = o := rfl
@[simp] theorem State.reportRecord_f0 (s : State) (r l : Byte) (o a b : Half) : (s.reportRecord r l o a b).f0 = a := rfl
@[simp] theorem State.reportRecord_f1 (s : State) (r l : Byte) (o a b : Half) : (s.reportRecord r l o a b).f1 = b := rfl
@[simp] theorem State.reportRecord_feed (s : State) (r l : Byte) (o a b : Half) : (s.reportRecord r l o a b).feed = s.feed := rfl

@[simp] theorem State.endLine_phase (s : State) : (s.endLine).phase = .idle := rfl
@[simp] theorem State.endLine_mok (s : State) : (s.endLine).mok = s.mok := rfl
@[simp] theorem State.endLine_herr (s : State) : (s.endLine).herr = s.herr := rfl
@[simp] theorem State.endLine_ovf (s : State) : (s.endLine).ovf = s.ovf := rfl
@[simp] theorem State.endLine_cnt (s : State) : (s.endLine).cnt = s.cnt := rfl
@[simp] theorem State.endLine_sum (s : State) : (s.endLine).sum = s.sum := rfl
@[simp] theorem State.endLine_buf (s : State) : (s.endLine).buf = s.buf := rfl
@[simp] theorem State.endLine_done (s : State) : (s.endLine).done = s.done := rfl
@[simp] theorem State.endLine_status (s : State) : (s.endLine).status = s.status := rfl
@[simp] theorem State.endLine_ckc (s : State) : (s.endLine).ckc = s.ckc := rfl
@[simp] theorem State.endLine_cke (s : State) : (s.endLine).cke = s.cke := rfl
@[simp] theorem State.endLine_rtype (s : State) : (s.endLine).rtype = s.rtype := rfl
@[simp] theorem State.endLine_len (s : State) : (s.endLine).len = s.len := rfl
@[simp] theorem State.endLine_offset (s : State) : (s.endLine).offset = s.offset := rfl
@[simp] theorem State.endLine_f0 (s : State) : (s.endLine).f0 = s.f0 := rfl
@[simp] theorem State.endLine_f1 (s : State) : (s.endLine).f1 = s.f1 := rfl
@[simp] theorem State.endLine_feed (s : State) : (s.endLine).feed = s.feed := rfl

end Sys2Proof.Machine
end

