-- ==== Sys2Proof/Laws/Frame.lean ====
section
/-! SUPPORT. Reads of the frame buffer, and the frame as a list of bytes. -/

namespace Sys2Proof.Machine

/-- A defined read is a read below `CNT` of a written cell (20_memory.md R42). -/
theorem State.readBuf_eq_ok {s : State} {i : Nat} {b : Byte} :
    s.readBuf i = .ok b ↔ i < s.cnt.toNat ∧ s.buf.read i = some b := by
  unfold State.readBuf
  by_cases h : i < s.cnt.toNat
  · cases hr : s.buf.read i <;> simp [h]
  · simp [h]

/-- A read at or above `CNT` is not defined (R42). -/
theorem State.readBuf_beyond {s : State} {i : Nat} (h : s.cnt.toNat ≤ i) : s.readBuf i = .error .readBeyondFrame := by
  simp [State.readBuf, Nat.not_lt.mpr h]

theorem State.readBuf_congr {s t : State} (hc : t.cnt = s.cnt) (hb : t.buf = s.buf) (i : Nat) :
    t.readBuf i = s.readBuf i := by
  simp [State.readBuf, hc, hb]

theorem withByte_ok {s : State} {i : Nat} {b : Byte} {k : Byte → StepOutcome} (h : s.readBuf i = .ok b) :
    withByte s i k = k b := by
  simp [withByte, h]

theorem withHalf_ok {s : State} {i : Nat} {hi lo : Byte} {k : Half → StepOutcome} (h₀ : s.readBuf i = .ok hi)
    (h₁ : s.readBuf (i + 1) = .ok lo) : withHalf s i k = k (joinHalf hi lo) := by
  simp [withHalf, withByte_ok h₀, withByte_ok h₁]

theorem withWord_ok {s : State} {i : Nat} {b₀ b₁ b₂ b₃ : Byte} {k : Address32 → StepOutcome}
    (h₀ : s.readBuf i = .ok b₀) (h₁ : s.readBuf (i + 1) = .ok b₁) (h₂ : s.readBuf (i + 2) = .ok b₂)
    (h₃ : s.readBuf (i + 3) = .ok b₃) : withWord s i k = k (joinWord (joinHalf b₀ b₁) (joinHalf b₂ b₃)) := by
  simp [withWord, withHalf_ok h₀ h₁, withHalf_ok h₂ h₃]

/-- If a computation that reads answers a next state, the read was defined. -/
theorem withByte_next {s t : State} {i : Nat} {k : Byte → StepOutcome} (h : withByte s i k = .next t) :
    ∃ b, s.readBuf i = .ok b ∧ k b = .next t := by
  unfold withByte at h
  cases hr : s.readBuf i with
  | ok b => exact ⟨b, rfl, by simpa [hr] using h⟩
  | error f => simp [hr] at h

theorem withHalf_next {s t : State} {i : Nat} {k : Half → StepOutcome} (h : withHalf s i k = .next t) :
    ∃ hi lo, s.readBuf i = .ok hi ∧ s.readBuf (i + 1) = .ok lo ∧ k (joinHalf hi lo) = .next t := by
  obtain ⟨hi, h₀, h⟩ := withByte_next h
  obtain ⟨lo, h₁, h⟩ := withByte_next h
  exact ⟨hi, lo, h₀, h₁, h⟩

theorem withWord_next {s t : State} {i : Nat} {k : Address32 → StepOutcome} (h : withWord s i k = .next t) :
    ∃ b₀ b₁ b₂ b₃, s.readBuf i = .ok b₀ ∧ s.readBuf (i + 1) = .ok b₁ ∧ s.readBuf (i + 2) = .ok b₂ ∧
      s.readBuf (i + 3) = .ok b₃ ∧ k (joinWord (joinHalf b₀ b₁) (joinHalf b₂ b₃)) = .next t := by
  obtain ⟨b₀, b₁, h₀, h₁, h⟩ := withHalf_next h
  obtain ⟨b₂, b₃, h₂, h₃, h⟩ := withHalf_next h
  exact ⟨b₀, b₁, b₂, b₃, h₀, h₁, h₂, h₃, h⟩

/-- A 16-bit field is `hi * 256 + lo` (41_checksum.md R111 item 6). -/
theorem joinHalf_toNat (hi lo : Byte) : (joinHalf hi lo).toNat = hi.toNat * 256 + lo.toNat := by
  rw [joinHalf, BitVec.toNat_append, ← Nat.shiftLeft_add_eq_or_of_lt lo.isLt, Nat.shiftLeft_eq]

theorem joinWord_toNat (hi lo : Half) : (joinWord hi lo).toNat = hi.toNat * 65536 + lo.toNat := by
  rw [joinWord, BitVec.toNat_append, ← Nat.shiftLeft_add_eq_or_of_lt lo.isLt, Nat.shiftLeft_eq]

theorem halfHi_toNat (v : Half) : (halfHi v).toNat = v.toNat / 256 := by
  simp only [halfHi, BitVec.extractLsb'_toNat, Nat.shiftRight_eq_div_pow]
  omega

theorem halfLo_toNat (v : Half) : (halfLo v).toNat = v.toNat % 256 := by
  simp [halfLo, BitVec.extractLsb'_toNat]

theorem wordHi_toNat (v : Address32) : (wordHi v).toNat = v.toNat / 65536 := by
  simp only [wordHi, BitVec.extractLsb'_toNat, Nat.shiftRight_eq_div_pow]
  omega

theorem wordLo_toNat (v : Address32) : (wordLo v).toNat = v.toNat % 65536 := by
  simp [wordLo, BitVec.extractLsb'_toNat]

/-- Bytes to fields and back (20_memory.md R45, R47). -/
@[simp] theorem joinHalf_halves (v : Half) : joinHalf (halfHi v) (halfLo v) = v := by
  apply BitVec.eq_of_toNat_eq
  rw [joinHalf_toNat, halfHi_toNat, halfLo_toNat]
  omega

@[simp] theorem joinWord_halves (v : Address32) : joinWord (wordHi v) (wordLo v) = v := by
  apply BitVec.eq_of_toNat_eq
  rw [joinWord_toNat, wordHi_toNat, wordLo_toNat]
  omega

@[simp] theorem wordHi_joinWord (hi lo : Half) : wordHi (joinWord hi lo) = hi := by
  apply BitVec.eq_of_toNat_eq
  rw [wordHi_toNat, joinWord_toNat]
  omega

@[simp] theorem wordLo_joinWord (hi lo : Half) : wordLo (joinWord hi lo) = lo := by
  apply BitVec.eq_of_toNat_eq
  rw [wordLo_toNat, joinWord_toNat]
  omega

@[simp] theorem halfHi_joinHalf (hi lo : Byte) : halfHi (joinHalf hi lo) = hi := by
  apply BitVec.eq_of_toNat_eq
  rw [halfHi_toNat, joinHalf_toNat]
  omega

@[simp] theorem halfLo_joinHalf (hi lo : Byte) : halfLo (joinHalf hi lo) = lo := by
  apply BitVec.eq_of_toNat_eq
  rw [halfLo_toNat, joinHalf_toNat]
  omega

/-- The fields of a header assembled from its four bytes (30_encoding.md R69). -/
@[simp] theorem headerLength_join (b₀ b₁ b₂ b₃ : Byte) :
    headerLength (joinWord (joinHalf b₀ b₁) (joinHalf b₂ b₃)) = b₀ := by
  apply BitVec.eq_of_toNat_eq
  rw [headerLength_toNat, joinWord_toNat, joinHalf_toNat, joinHalf_toNat]
  omega

@[simp] theorem headerOffset_join (b₀ b₁ b₂ b₃ : Byte) :
    headerOffset (joinWord (joinHalf b₀ b₁) (joinHalf b₂ b₃)) = joinHalf b₁ b₂ := by
  apply BitVec.eq_of_toNat_eq
  rw [headerOffset_toNat, joinWord_toNat, joinHalf_toNat, joinHalf_toNat, joinHalf_toNat]
  omega

@[simp] theorem headerTag_join (b₀ b₁ b₂ b₃ : Byte) :
    headerTag (joinWord (joinHalf b₀ b₁) (joinHalf b₂ b₃)) = b₃ := by
  apply BitVec.eq_of_toNat_eq
  rw [headerTag_toNat, joinWord_toNat, joinHalf_toNat, joinHalf_toNat]
  omega

/-- A header's four bytes spell the header (30_encoding.md R69). -/
theorem join_headerBytes (h : HeaderWord) :
    joinWord (joinHalf (headerLength h) (halfHi (headerOffset h)))
      (joinHalf (halfLo (headerOffset h)) (headerTag h)) = h := by
  apply BitVec.eq_of_toNat_eq
  rw [joinWord_toNat, joinHalf_toNat, joinHalf_toNat, headerLength_toNat, halfHi_toNat, halfLo_toNat,
    headerOffset_toNat, headerTag_toNat]
  omega

/-- The frame depends on `CNT` and `BUF` alone. -/
theorem State.frameBytes_congr {s t : State} (hc : t.cnt = s.cnt) (hb : t.buf = s.buf) :
    t.frameBytes = s.frameBytes := by
  simp [State.frameBytes, hc, hb]

/-- If every stored cell has a value, the frame has `CNT` bytes, byte `i` being `BUF[i]`. -/
theorem State.frameBytes_getElem? {s : State} (h : ∀ i, i < s.cnt.toNat → (s.buf.read i).isSome = true) {i : Nat}
    (hi : i < s.cnt.toNat) : s.frameBytes[i]? = s.buf.read i := by
  have hmap : s.frameBytes = (List.range s.cnt.toNat).map fun j => (s.buf.read j).getD 0 := by
    unfold State.frameBytes
    rw [← List.filterMap_eq_map]
    apply List.filterMap_congr
    intro j hj
    obtain ⟨b, hb⟩ := Option.isSome_iff_exists.mp (h j (List.mem_range.mp hj))
    simp [hb]
  obtain ⟨b, hb⟩ := Option.isSome_iff_exists.mp (h i hi)
  simp [hmap, hi, hb]

theorem State.frameBytes_length {s : State} (h : ∀ i, i < s.cnt.toNat → (s.buf.read i).isSome = true) :
    s.frameBytes.length = s.cnt.toNat := by
  have hmap : s.frameBytes = (List.range s.cnt.toNat).map fun j => (s.buf.read j).getD 0 := by
    unfold State.frameBytes
    rw [← List.filterMap_eq_map]
    apply List.filterMap_congr
    intro j hj
    obtain ⟨b, hb⟩ := Option.isSome_iff_exists.mp (h j (List.mem_range.mp hj))
    simp [hb]
  simp [hmap]

/-- With room in the frame, `CNT` counts up without wrapping (10_state.md R12). -/
theorem State.appendByte_cnt_toNat {s : State} (d : Byte) (h : s.cnt.toNat < Config.maxFrame) :
    (s.appendByte d).cnt.toNat = s.cnt.toNat + 1 := by
  simp only [Config.maxFrame] at h
  simp only [State.appendByte_cnt]
  bv_omega

/-- Storing a byte extends the frame by that byte (40_beat_ingest.md R92). -/
theorem State.frameBytes_appendByte {s : State} (d : Byte) (h : s.cnt.toNat < Config.maxFrame) :
    (s.appendByte d).frameBytes = s.frameBytes ++ [d] := by
  unfold State.frameBytes
  rw [State.appendByte_cnt_toNat d h, List.range_succ, List.filterMap_append]
  congr 1
  · apply List.filterMap_congr
    intro i hi
    have : i ≠ s.cnt.toNat := by have := List.mem_range.mp hi; omega
    simp [Memory.read_write_other _ _ this]
  · simp

/-- Storing a byte leaves a value in every stored cell. -/
theorem State.stored_appendByte {s : State} (d : Byte) (hc : s.cnt.toNat < Config.maxFrame)
    (h : ∀ i, i < s.cnt.toNat → (s.buf.read i).isSome = true) :
    ∀ i, i < (s.appendByte d).cnt.toNat → ((s.appendByte d).buf.read i).isSome = true := by
  intro i hi
  rw [State.appendByte_cnt_toNat d hc] at hi
  simp only [State.appendByte_buf, Memory.read_write]
  by_cases h' : i = s.cnt.toNat
  · simp [h']
  · simp [h', h i (by omega)]

@[simp] theorem State.frameBytes_startLine (s : State) (h : Bool) (d : Byte) : (s.startLine h d).frameBytes = [] := rfl

end Sys2Proof.Machine
end

