-- ==== Sys2Proof/Laws/Record.lean ====
section
/-! SUPPORT. What a record arm and `DISPATCH` can do (43_record_dispatch.md R140 to R148). -/

namespace Sys2Proof.Machine

@[simp] theorem andThen_next (s : State) (k : State → StepOutcome) : andThen (.next s) k = k s := rfl

/-- If a composition answers a next state, both parts did. -/
theorem andThen_eq_next {o : StepOutcome} {k : State → StepOutcome} {t : State} (h : andThen o k = .next t) :
    ∃ s, o = .next s ∧ k s = .next t := by
  cases o with
  | next s => exact ⟨s, rfl, h⟩
  | fault f => simp [andThen] at h
  | refused r => simp [andThen] at h

theorem requireWidth_fits {w l : Byte} {s : State} {accept : StepOutcome} (h : l = w) :
    requireWidth w l s accept = accept := by
  simp [requireWidth, h]

theorem requireWidth_misfits {w l : Byte} {s : State} {accept : StepOutcome} (h : l ≠ w) :
    requireWidth w l s accept = .next (s.reportError .lengthMismatch) := by
  simp [requireWidth, h, raise]

theorem requireWidth_next {w l : Byte} {s t : State} {accept : StepOutcome}
    (h : requireWidth w l s accept = .next t) :
    (l ≠ w ∧ t = s.reportError .lengthMismatch) ∨ (l = w ∧ accept = .next t) := by
  by_cases hw : l = w
  · exact .inr ⟨hw, by rwa [requireWidth_fits hw] at h⟩
  · rw [requireWidth_misfits hw] at h
    exact .inl ⟨hw, by simpa using h.symm⟩

/-- A byte of value `n` is the literal `n`. -/
theorem byte_eq_of_toNat {b : Byte} {n : Nat} (h : b.toNat = n) : b = BitVec.ofNat 8 n := by
  subst h
  simp

/-- Everything `DISPATCH` can do: report an unknown tag, report a wrong width, or report the record of a known tag. -/
theorem dispatch_next {h : HeaderWord} {s t : State} (hd : dispatch h s = .next t) :
    (5 < (headerTag h).toNat ∧ t = s.reportError .unknownRecordType) ∨
    ((headerTag h).toNat ≤ 5 ∧ t = s.reportError .lengthMismatch) ∨
    ((headerTag h).toNat ≤ 5 ∧ ∃ a b, t = s.reportRecord (headerTag h) (headerLength h) (headerOffset h) a b) := by
  simp only [dispatch] at hd
  generalize headerTag h = tag at hd ⊢
  generalize headerLength h = l at hd ⊢
  generalize headerOffset h = o at hd ⊢
  split at hd
  · rename_i ht; subst ht
    exact .inr (.inr ⟨by decide, 0, 0, by simpa [execData] using hd.symm⟩)
  split at hd
  · rename_i ht; subst ht
    obtain ⟨-, h⟩ | ⟨-, h⟩ := requireWidth_next hd
    · exact .inr (.inl ⟨by decide, h⟩)
    · exact .inr (.inr ⟨by decide, 0, 0, by simpa using h.symm⟩)
  split at hd
  · rename_i ht; subst ht
    obtain ⟨-, h⟩ | ⟨-, h⟩ := requireWidth_next hd
    · exact .inr (.inl ⟨by decide, h⟩)
    · obtain ⟨_, _, -, -, h⟩ := withHalf_next h
      exact .inr (.inr ⟨by decide, _, _, by simpa using h.symm⟩)
  split at hd
  · rename_i ht; subst ht
    obtain ⟨-, h⟩ | ⟨-, h⟩ := requireWidth_next hd
    · exact .inr (.inl ⟨by decide, h⟩)
    · obtain ⟨_, _, -, -, h⟩ := withHalf_next h
      obtain ⟨_, _, -, -, h⟩ := withHalf_next h
      exact .inr (.inr ⟨by decide, _, _, by simpa using h.symm⟩)
  split at hd
  · rename_i ht; subst ht
    obtain ⟨-, h⟩ | ⟨-, h⟩ := requireWidth_next hd
    · exact .inr (.inl ⟨by decide, h⟩)
    · obtain ⟨_, _, -, -, h⟩ := withHalf_next h
      exact .inr (.inr ⟨by decide, _, _, by simpa using h.symm⟩)
  split at hd
  · rename_i ht; subst ht
    obtain ⟨-, h⟩ | ⟨-, h⟩ := requireWidth_next hd
    · exact .inr (.inl ⟨by decide, h⟩)
    · obtain ⟨_, _, _, _, -, -, -, -, h⟩ := withWord_next h
      exact .inr (.inr ⟨by decide, _, _, by simpa using h.symm⟩)
  have hu : t = s.reportError .unknownRecordType := by
    revert hd
    simp only [execUnknown06, execUnknown08, execUnknown10, execUnknown20, execUnknown40, execUnknown80, ite_self, raise]
    intro hd
    simpa using hd.symm
  exact .inl ⟨by bv_omega, hu⟩

/-- `DISPATCH` of an unknown tag. -/
theorem dispatch_unknown {h : HeaderWord} (s : State) (ht : 5 < (headerTag h).toNat) :
    dispatch h s = .next (s.reportError .unknownRecordType) := by
  have hne : ∀ n, n ≤ 5 → headerTag h ≠ BitVec.ofNat 8 n := by
    intro n hn e
    rw [e, BitVec.toNat_ofNat] at ht
    omega
  have h0 : ¬headerTag h = 0x00 := hne 0 (by omega)
  have h1 : ¬headerTag h = 0x01 := hne 1 (by omega)
  have h2 : ¬headerTag h = 0x02 := hne 2 (by omega)
  have h3 : ¬headerTag h = 0x03 := hne 3 (by omega)
  have h4 : ¬headerTag h = 0x04 := hne 4 (by omega)
  have h5 : ¬headerTag h = 0x05 := hne 5 (by omega)
  simp only [dispatch, if_neg h0, if_neg h1, if_neg h2, if_neg h3, if_neg h4, if_neg h5, execUnknown06, execUnknown08,
    execUnknown10, execUnknown20, execUnknown40, execUnknown80, raise, ite_self]

theorem requireWidth_completes {w l : Byte} {s : State} {accept : StepOutcome}
    (h : l = w → ∃ t, accept = .next t) : ∃ t, requireWidth w l s accept = .next t := by
  by_cases hw : l = w
  · rw [requireWidth_fits hw]
    exact h hw
  · exact ⟨_, requireWidth_misfits hw⟩

/-- The known tags (30_encoding.md R69). -/
theorem known_tag_cases : ∀ t : Byte, t.toNat ≤ 5 → t = 0x00 ∨ t = 0x01 ∨ t = 0x02 ∨ t = 0x03 ∨ t = 0x04 ∨ t = 0x05 := by
  decide

theorem dispatch_data {h : HeaderWord} (s : State) (e : headerTag h = 0x00) :
    dispatch h s = execData (headerLength h) (headerOffset h) s := by
  simp [dispatch, e]

theorem dispatch_eof {h : HeaderWord} (s : State) (e : headerTag h = 0x01) :
    dispatch h s = execEof (headerLength h) (headerOffset h) s := by
  simp [dispatch, e]

theorem dispatch_esa {h : HeaderWord} (s : State) (e : headerTag h = 0x02) :
    dispatch h s = execEsa (headerLength h) (headerOffset h) s := by
  simp [dispatch, e]

theorem dispatch_ssa {h : HeaderWord} (s : State) (e : headerTag h = 0x03) :
    dispatch h s = execSsa (headerLength h) (headerOffset h) s := by
  simp [dispatch, e]

theorem dispatch_ela {h : HeaderWord} (s : State) (e : headerTag h = 0x04) :
    dispatch h s = execEla (headerLength h) (headerOffset h) s := by
  simp [dispatch, e]

theorem dispatch_sla {h : HeaderWord} (s : State) (e : headerTag h = 0x05) :
    dispatch h s = execSla (headerLength h) (headerOffset h) s := by
  simp [dispatch, e]

/-- With every payload byte defined, `DISPATCH` always has a next state. -/
theorem dispatch_completes (h : HeaderWord) {s : State}
    (hp : ∀ i, i < (headerLength h).toNat → ∃ b, s.readBuf (4 + i) = .ok b) : ∃ t, dispatch h s = .next t := by
  by_cases hk : 5 < (headerTag h).toNat
  · exact ⟨_, dispatch_unknown s hk⟩
  have two : headerLength h = 2 → ∃ b₄ b₅, s.readBuf 4 = .ok b₄ ∧ s.readBuf (4 + 1) = .ok b₅ := by
    intro hl
    obtain ⟨b₄, h₄⟩ := hp 0 (by simp [hl])
    obtain ⟨b₅, h₅⟩ := hp 1 (by simp [hl])
    exact ⟨b₄, b₅, h₄, h₅⟩
  have four : headerLength h = 4 → ∃ b₄ b₅ b₆ b₇, s.readBuf 4 = .ok b₄ ∧ s.readBuf (4 + 1) = .ok b₅ ∧
      s.readBuf (4 + 2) = .ok b₆ ∧ s.readBuf (4 + 3) = .ok b₇ := by
    intro hl
    obtain ⟨b₄, h₄⟩ := hp 0 (by simp [hl])
    obtain ⟨b₅, h₅⟩ := hp 1 (by simp [hl])
    obtain ⟨b₆, h₆⟩ := hp 2 (by simp [hl])
    obtain ⟨b₇, h₇⟩ := hp 3 (by simp [hl])
    exact ⟨b₄, b₅, b₆, b₇, h₄, h₅, h₆, h₇⟩
  rcases known_tag_cases _ (Nat.not_lt.mp hk) with e | e | e | e | e | e
  · exact ⟨_, dispatch_data s e⟩
  · rw [dispatch_eof s e]
    exact requireWidth_completes fun _ => ⟨_, rfl⟩
  · rw [dispatch_esa s e]
    exact requireWidth_completes fun hl => by
      obtain ⟨b₄, b₅, h₄, h₅⟩ := two hl
      exact ⟨_, withHalf_ok h₄ h₅⟩
  · rw [dispatch_ssa s e]
    exact requireWidth_completes fun hl => by
      obtain ⟨b₄, b₅, b₆, b₇, h₄, h₅, h₆, h₇⟩ := four hl
      exact ⟨_, by rw [withHalf_ok h₄ h₅, withHalf_ok h₆ h₇]⟩
  · rw [dispatch_ela s e]
    exact requireWidth_completes fun hl => by
      obtain ⟨b₄, b₅, h₄, h₅⟩ := two hl
      exact ⟨_, withHalf_ok h₄ h₅⟩
  · rw [dispatch_sla s e]
    exact requireWidth_completes fun hl => by
      obtain ⟨b₄, b₅, b₆, b₇, h₄, h₅, h₆, h₇⟩ := four hl
      exact ⟨_, withWord_ok h₄ h₅ h₆ h₇⟩

end Sys2Proof.Machine
end

