-- ==== Sys2Proof/Laws/Eval.lean ====
section
/-! SUPPORT. What `EVAL` can do (42_framing.md R125 to R134). -/

namespace Sys2Proof.Machine

/-- Everything checks 6 and 7 can do. -/
theorem evalHeader_next {s t : State} (h : evalHeader s = .next t) :
    (∃ e, (e = .lengthMismatch ∨ e = .unknownRecordType) ∧ t = s.reportError e) ∨
    ∃ l b₁ b₂ tag a b, s.readBuf 0 = .ok l ∧ s.readBuf 1 = .ok b₁ ∧ s.readBuf 2 = .ok b₂ ∧ s.readBuf 3 = .ok tag ∧
      s.cnt.toNat - 5 = l.toNat ∧ tag.toNat ≤ 5 ∧ t = s.reportRecord tag l (joinHalf b₁ b₂) a b := by
  obtain ⟨l, hl, h⟩ := withByte_next h
  split at h
  · exact .inl ⟨_, .inl rfl, by simpa [raise] using h.symm⟩
  · rename_i hn
    obtain ⟨b₀, b₁, b₂, b₃, h₀, h₁, h₂, h₃, h⟩ := withWord_next h
    have hb : b₀ = l := by rw [hl] at h₀; exact (Except.ok.inj h₀).symm
    subst hb
    obtain ⟨-, h⟩ | ⟨-, h⟩ | ⟨ht, a, b, h⟩ := dispatch_next h
    · exact .inl ⟨_, .inr rfl, h⟩
    · exact .inl ⟨_, .inl rfl, h⟩
    · simp only [headerTag_join, headerLength_join, headerOffset_join] at h ht
      exact .inr ⟨b₀, b₁, b₂, b₃, a, b, h₀, h₁, h₂, h₃, by simpa [Config.minFrame] using hn, ht, h⟩

/-- `EVAL` with its conditions read from the state before `DONE <- 1`, which none of them reads. -/
theorem eval_eq (s : State) :
    eval s =
      if s.mok = false then .next (s.markDone.reportError .missingMarker)
      else if malformed s = true then .next (s.markDone.reportError .malformedHex)
      else if s.cnt.toNat = 0 then .next (s.markDone.reportError .lengthMismatch)
      else withByte s (s.cnt.toNat - 1) fun expected => evalChecksum expected s.markDone := by
  cases hm : s.mok with
  | false => simp [eval, hm, raise]
  | true =>
    have hmal : malformed s.markDone = malformed s := rfl
    cases hf : malformed s <;> simp [eval, hm, hmal, hf, raise, withByte, State.readBuf]

/-- `VERIFY` with its conditions read from the state before `CKC`, `CKE` are written. -/
theorem evalChecksum_eq (e : Byte) (s : State) :
    evalChecksum e s =
      if s.sum ≠ 0 then
        .next ((s.recordChecksums (computedChecksum e s.sum) e).reportError
          (.badChecksum (computedChecksum e s.sum) e))
      else if s.cnt.toNat < 5 then .next ((s.recordChecksums e e).reportError .lengthMismatch)
      else evalHeader (s.recordChecksums e e) := by
  by_cases h0 : s.sum = 0
  · have hc : computedChecksum e s.sum = e := (computedChecksum_eq_iff e s.sum).mpr h0
    rw [if_neg (not_not_intro h0)]
    simp only [evalChecksum, hc, ne_eq, not_true_eq_false, if_false]
    rfl
  · have hc : computedChecksum e s.sum ≠ e := fun h => h0 ((computedChecksum_eq_iff e s.sum).mp h)
    rw [if_pos h0]
    simp only [evalChecksum, if_pos hc, raise]

/-- Everything `EVAL` can do, check by check. -/
theorem eval_next {s t : State} (h : eval s = .next t) :
    (s.mok = false ∧ t = s.markDone.reportError .missingMarker) ∨
    (s.mok = true ∧ malformed s = true ∧ t = s.markDone.reportError .malformedHex) ∨
    (s.mok = true ∧ malformed s = false ∧ s.cnt.toNat = 0 ∧ t = s.markDone.reportError .lengthMismatch) ∨
    ∃ e u, s.mok = true ∧ malformed s = false ∧ 1 ≤ s.cnt.toNat ∧ s.readBuf (s.cnt.toNat - 1) = .ok e ∧
      u = s.markDone.recordChecksums (computedChecksum e s.sum) e ∧
      ((s.sum ≠ 0 ∧ t = u.reportError (.badChecksum (computedChecksum e s.sum) e)) ∨
       (s.sum = 0 ∧ ∃ x, (x = .lengthMismatch ∨ x = .unknownRecordType) ∧ t = u.reportError x) ∨
       (s.sum = 0 ∧ ∃ l b₁ b₂ tag a b, s.readBuf 0 = .ok l ∧ s.readBuf 1 = .ok b₁ ∧ s.readBuf 2 = .ok b₂ ∧
        s.readBuf 3 = .ok tag ∧ s.cnt.toNat = l.toNat + 5 ∧ tag.toNat ≤ 5 ∧
        t = u.reportRecord tag l (joinHalf b₁ b₂) a b)) := by
  rw [eval_eq] at h
  by_cases hm : s.mok = false
  · rw [if_pos hm] at h
    exact .inl ⟨hm, by simpa using h.symm⟩
  rw [if_neg hm] at h
  simp only [Bool.not_eq_false] at hm
  by_cases hf : malformed s = true
  · rw [if_pos hf] at h
    exact .inr (.inl ⟨hm, hf, by simpa using h.symm⟩)
  rw [if_neg hf] at h
  simp only [Bool.not_eq_true] at hf
  by_cases hc : s.cnt.toNat = 0
  · rw [if_pos hc] at h
    exact .inr (.inr (.inl ⟨hm, hf, hc, by simpa using h.symm⟩))
  rw [if_neg hc] at h
  obtain ⟨e, he, h⟩ := withByte_next h
  refine .inr (.inr (.inr ⟨e, _, hm, hf, by omega, he, rfl, ?_⟩))
  rw [evalChecksum_eq] at h
  by_cases h0 : s.sum = 0
  swap
  · rw [if_pos (by simpa using h0)] at h
    exact .inl ⟨h0, by simpa using h.symm⟩
  rw [if_neg (by simpa using h0)] at h
  rw [show computedChecksum e s.sum = e from (computedChecksum_eq_iff e s.sum).mpr h0]
  by_cases hn : s.cnt.toNat < 5
  · rw [if_pos (by simpa using hn)] at h
    exact .inr (.inl ⟨h0, _, .inl rfl, by simpa using h.symm⟩)
  rw [if_neg (by simpa using hn)] at h
  obtain ⟨x, hx, h⟩ | ⟨l, b₁, b₂, tag, a, b, r₀, r₁, r₂, r₃, hl, ht, h⟩ := evalHeader_next h
  · exact .inr (.inl ⟨h0, x, hx, h⟩)
  · simp only [State.recordChecksums_cnt, State.markDone_cnt] at hl
    exact .inr (.inr ⟨h0, l, b₁, b₂, tag, a, b, r₀, r₁, r₂, r₃, by omega, ht, h⟩)

end Sys2Proof.Machine
end

