-- ==== Sys2Proof/Laws/Step.lean ====
section
/-! SUPPORT. What one beat and one step can do (40_beat_ingest.md R90 to R96, 70_reset_and_hazards.md R190). -/

namespace Sys2Proof.Machine

theorem storeByte_room {s : State} (d : Byte) (h : s.cnt.toNat < Config.maxFrame) :
    storeByte d s = .next (s.appendByte d) := by
  simp [storeByte, h]

theorem storeByte_next {s t : State} {d : Byte} (h : storeByte d s = .next t) :
    s.cnt.toNat < Config.maxFrame ∧ t = s.appendByte d := by
  by_cases hc : s.cnt.toNat < Config.maxFrame
  · rw [storeByte_room d hc] at h
    exact ⟨hc, by simpa using h.symm⟩
  · simp [storeByte, hc] at h

/-- Everything the effect of a beat's kind can be (R90). -/
theorem beatEffect_next {h : Bool} {d : Byte} {s t : State} (he : beatEffect h d s = .next t) :
    (s.phase = .idle ∧ t = s.startLine h d) ∨
    (s.phase = .body ∧ h = true ∧ t = s.noteHexerr) ∨
    (s.phase = .body ∧ h = false ∧ s.cnt.toNat = Config.maxFrame ∧ t = s.dropByte) ∨
    (s.phase = .body ∧ h = false ∧ s.cnt.toNat < Config.maxFrame ∧ t = s.appendByte d) := by
  unfold beatEffect at he
  cases hp : s.phase with
  | idle => exact .inl ⟨rfl, by simpa [hp] using he.symm⟩
  | body =>
    simp only [hp] at he
    cases h with
    | true => exact .inr (.inl ⟨rfl, rfl, by simpa using he.symm⟩)
    | false =>
      simp only [Bool.false_eq_true, if_false] at he
      by_cases hc : s.cnt.toNat = Config.maxFrame
      · rw [if_pos hc] at he
        exact .inr (.inr (.inl ⟨rfl, rfl, hc, by simpa using he.symm⟩))
      · rw [if_neg hc] at he
        obtain ⟨hlt, ht⟩ := storeByte_next he
        exact .inr (.inr (.inr ⟨rfl, rfl, hlt, ht⟩))

/-- With `CNT` in its range the effect of a beat's kind always has a next state (R97). -/
theorem beatEffect_completes (h : Bool) (d : Byte) {s : State} (hc : s.cnt.toNat ≤ Config.maxFrame) :
    ∃ t, beatEffect h d s = .next t := by
  unfold beatEffect
  cases s.phase with
  | idle => exact ⟨_, rfl⟩
  | body =>
    cases h with
    | true => exact ⟨_, rfl⟩
    | false =>
      by_cases hf : s.cnt.toNat = Config.maxFrame
      · exact ⟨s.dropByte, by simp [hf]⟩
      · exact ⟨s.appendByte d, by simpa [hf] using storeByte_room d (by omega)⟩

/-- A decoded beat word has the effect of its kind, and with `last` the end of the line after it (R90). -/
theorem exec_decodeBeat (w : BeatWord) (s : State) :
    exec (decodeBeat s.beatContext w) s =
      if beatLast w = true then execLast (beatHexerr w) (beatData w) s
      else beatEffect (beatHexerr w) (beatData w) s := by
  unfold decodeBeat
  cases hl : beatLast w with
  | true => simp [exec]
  | false =>
    unfold State.beatContext beatEffect
    cases s.phase with
    | idle => rfl
    | body =>
      by_cases hc : s.cnt.toNat = Config.maxFrame <;> cases hh : beatHexerr w <;> simp [hc, exec] <;> rfl

/-- Everything a beat with `last` can do: its effect, the evaluation, and `PHASE <- IDLE` (R96). -/
theorem execLast_next {h : Bool} {d : Byte} {s t : State} (hl : execLast h d s = .next t) :
    ∃ u v, beatEffect h d s = .next u ∧ eval u = .next v ∧ t = v.endLine := by
  obtain ⟨u, hu, hl⟩ := andThen_eq_next hl
  obtain ⟨v, hv, hl⟩ := andThen_eq_next hl
  exact ⟨u, v, hu, hv, by simpa using hl.symm⟩

theorem execLast_of {h : Bool} {d : Byte} {s u v : State} (hu : beatEffect h d s = .next u) (hv : eval u = .next v) :
    execLast h d s = .next v.endLine := by
  simp [execLast, hu, hv]

/-- Everything a step can do. -/
theorem step_next {s t : State} (h : step s = .next t) :
    (s.feed = [] ∧ t = s) ∨
    (∃ rest, s.feed = .reset :: rest ∧ t = (s.withFeed rest).resetRegisters) ∨
    ∃ w rest u, s.feed = .beat w :: rest ∧ beatEffect (beatHexerr w) (beatData w) (s.withFeed rest) = .next u ∧
      ((beatLast w = false ∧ t = u) ∨ (beatLast w = true ∧ ∃ v, eval u = .next v ∧ t = v.endLine)) := by
  unfold step at h
  cases hf : s.feed with
  | nil => exact .inl ⟨rfl, by simpa [hf] using h.symm⟩
  | cons e rest =>
    simp only [hf] at h
    cases e with
    | reset => exact .inr (.inl ⟨rest, rfl, by simpa [runEvent] using h.symm⟩)
    | beat w =>
      simp only [runEvent, exec_decodeBeat] at h
      cases hl : beatLast w with
      | false =>
        simp only [hl, Bool.false_eq_true, if_false] at h
        exact .inr (.inr ⟨w, rest, t, rfl, h, .inl ⟨hl, rfl⟩⟩)
      | true =>
        simp only [hl, if_true] at h
        obtain ⟨u, v, hu, hv, ht⟩ := execLast_next h
        exact .inr (.inr ⟨w, rest, u, rfl, hu, .inr ⟨hl, v, hv, ht⟩⟩)

/-- A step on a beat. -/
theorem step_beat {s : State} {w : BeatWord} {rest : List FeedEvent} (h : s.feed = .beat w :: rest) :
    step s =
      if beatLast w = true then execLast (beatHexerr w) (beatData w) (s.withFeed rest)
      else beatEffect (beatHexerr w) (beatData w) (s.withFeed rest) := by
  simp only [step, h, runEvent, exec_decodeBeat]

@[simp] theorem runSteps_zero (s : State) : runSteps 0 s = .next s := rfl

/-- One more step of any machine's run comes first. -/
theorem run_next {M : Host.Core} {s t : M.State} (n : Nat) (h : M.step s = .next t) : M.run (n + 1) s = M.run n t := by
  simp only [Host.Core.run, h]

theorem run_fault {M : Host.Core} {s : M.State} {f : M.Fault} (n : Nat) (h : M.step s = .fault f) :
    M.run (n + 1) s = .fault f := by
  simp only [Host.Core.run, h]

theorem run_refused {M : Host.Core} {s : M.State} {r : M.Refusal} (n : Nat) (h : M.step s = .refused r) :
    M.run (n + 1) s = .refused r := by
  simp only [Host.Core.run, h]

/-- One more step of a run comes first. -/
theorem runSteps_succ (n : Nat) (s : State) : runSteps (n + 1) s = andThen (step s) fun t => runSteps n t := by
  cases h : step s with
  | next t => exact run_next (M := Sys2Proof.core) n h
  | fault f => exact run_fault (M := Sys2Proof.core) n h
  | refused r => exact run_refused (M := Sys2Proof.core) n h

end Sys2Proof.Machine
end

