-- ==== Sys2Proof/Laws/Inv.lean ====
section
/-! SUPPORT. What the invariants of 10_state.md R29 give, and which named updates keep them. -/

namespace Sys2Proof.Machine

theorem State.Inv.withFeed {s : State} (h : s.Inv) (q : List FeedEvent) : (s.withFeed q).Inv :=
  ⟨h.bufWf, h.stored, h.cntLe, h.sumEq, h.ovfFull, h.doneIdle, h.notDone, h.accepted, h.statusLe⟩

theorem State.Inv.length_frameBytes {s : State} (h : s.Inv) : s.frameBytes.length = s.cnt.toNat :=
  State.frameBytes_length h.stored

/-- Under the invariant, reading `BUF[i]` gives byte `i` of the frame. -/
theorem State.Inv.readBuf_eq {s : State} (h : s.Inv) {i : Nat} {b : Byte} :
    s.readBuf i = .ok b ↔ s.frameBytes[i]? = some b := by
  rw [State.readBuf_eq_ok]
  constructor
  · rintro ⟨hi, hb⟩
    rw [State.frameBytes_getElem? h.stored hi, hb]
  · intro hb
    have hi : i < s.cnt.toNat := by
      rw [← h.length_frameBytes]
      exact (List.getElem?_eq_some_iff.mp hb).1
    exact ⟨hi, by rw [← State.frameBytes_getElem? h.stored hi, hb]⟩

theorem State.Inv.readBuf_last {s : State} (h : s.Inv) {b : Byte} :
    s.readBuf (s.cnt.toNat - 1) = .ok b ↔ s.frameBytes.getLast? = some b := by
  rw [h.readBuf_eq, List.getLast?_eq_getElem?, h.length_frameBytes]

theorem State.Inv.startLine {s : State} (h : s.Inv) (x : Bool) (d : Byte) : (s.startLine x d).Inv where
  bufWf := h.bufWf
  stored := by simp
  cntLe := by simp
  sumEq := by simp
  ovfFull := by simp
  doneIdle := by simp
  notDone := by simp [State.noResult]
  accepted := by simp
  statusLe := by simp

theorem State.Inv.noteHexerr {s : State} (h : s.Inv) : s.noteHexerr.Inv :=
  ⟨h.bufWf, h.stored, h.cntLe, h.sumEq, h.ovfFull, h.doneIdle, h.notDone, h.accepted, h.statusLe⟩

theorem State.Inv.dropByte {s : State} (h : s.Inv) (hc : s.cnt.toNat = Config.maxFrame) : s.dropByte.Inv :=
  ⟨h.bufWf, h.stored, h.cntLe, h.sumEq, fun _ => hc, h.doneIdle, h.notDone, h.accepted, h.statusLe⟩

theorem State.Inv.appendByte {s : State} (h : s.Inv) (hp : s.phase = .body) (hc : s.cnt.toNat < Config.maxFrame)
    (d : Byte) : (s.appendByte d).Inv where
  bufWf := Memory.wf_write _ _ _ hc h.bufWf
  stored := State.stored_appendByte d hc h.stored
  cntLe := by rw [State.appendByte_cnt_toNat d hc]; omega
  sumEq := by
    rw [State.frameBytes_appendByte d hc]
    simp [accumulate, h.sumEq]
  ovfFull := fun ho => absurd (h.ovfFull ho) (by omega)
  doneIdle := h.doneIdle
  notDone := h.notDone
  accepted := fun hd => absurd (h.doneIdle hd) (by simp [hp])
  statusLe := h.statusLe

/-- Under the invariant no line in progress has a result. -/
theorem State.Inv.notDone_of_body {s : State} (h : s.Inv) (hp : s.phase = .body) : s.done = false := by
  cases hd : s.done with
  | false => rfl
  | true => exact absurd (h.doneIdle hd) (by simp [hp])

/-- The effect of a beat's kind keeps the invariant and leaves no result. -/
theorem State.Inv.beatEffect {s t : State} {x : Bool} {d : Byte} (h : s.Inv) (he : beatEffect x d s = .next t) :
    t.Inv ∧ t.done = false := by
  rcases beatEffect_next he with ⟨-, rfl⟩ | ⟨hp, -, rfl⟩ | ⟨hp, -, hc, rfl⟩ | ⟨hp, -, hc, rfl⟩
  · exact ⟨h.startLine x d, rfl⟩
  · exact ⟨h.noteHexerr, h.notDone_of_body hp⟩
  · exact ⟨h.dropByte hc, h.notDone_of_body hp⟩
  · exact ⟨h.appendByte hp hc d, h.notDone_of_body hp⟩

/-- Under the invariant every read below `CNT` is defined (20_memory.md R42). -/
theorem State.Inv.readBuf_defined {s : State} (h : s.Inv) {i : Nat} (hi : i < s.cnt.toNat) :
    ∃ b, s.readBuf i = .ok b := by
  obtain ⟨b, hb⟩ := Option.isSome_iff_exists.mp (h.stored i hi)
  exact ⟨b, State.readBuf_eq_ok.mpr ⟨hi, hb⟩⟩

/-- Under the invariant the evaluation always has a next state (R97). -/
theorem State.Inv.eval_completes {s : State} (h : s.Inv) : ∃ t, eval s = .next t := by
  rw [eval_eq]
  split
  · exact ⟨_, rfl⟩
  split
  · exact ⟨_, rfl⟩
  by_cases hc : s.cnt.toNat = 0
  · exact ⟨_, if_pos hc⟩
  rw [if_neg hc]
  obtain ⟨e, he⟩ := h.readBuf_defined (i := s.cnt.toNat - 1) (by omega)
  rw [withByte_ok he, evalChecksum_eq]
  split
  · exact ⟨_, rfl⟩
  by_cases hn : s.cnt.toNat < 5
  · exact ⟨_, if_pos hn⟩
  rw [if_neg (by simpa using hn)]
  have hr : ∀ i, (s.markDone.recordChecksums e e).readBuf i = s.readBuf i := State.readBuf_congr rfl rfl
  obtain ⟨b₀, h₀⟩ := h.readBuf_defined (i := 0) (by omega)
  obtain ⟨b₁, h₁⟩ := h.readBuf_defined (i := 1) (by omega)
  obtain ⟨b₂, h₂⟩ := h.readBuf_defined (i := 2) (by omega)
  obtain ⟨b₃, h₃⟩ := h.readBuf_defined (i := 3) (by omega)
  rw [← hr] at h₀ h₁ h₂ h₃
  unfold evalHeader
  rw [withByte_ok h₀, withWord_ok h₀ h₁ h₂ h₃]
  split
  · exact ⟨_, rfl⟩
  rename_i hl
  simp only [State.recordChecksums_cnt, State.markDone_cnt, Config.minFrame, ne_eq, not_not] at hl
  refine dispatch_completes _ fun i hi => ?_
  rw [headerLength_join] at hi
  rw [hr]
  exact h.readBuf_defined (by omega)

end Sys2Proof.Machine
end

