-- ==== Sys2Proof/Laws/Line.lean ====
section
/-! SUPPORT. A line in progress, as the list of the bytes it has stored, and what `EVAL` makes of it. -/

namespace Sys2Proof.Machine

/-- A state with no result whose frame is `bytes`, all in place and summed: what every beat of a line leaves, whatever
state the line started from. -/
structure State.InLine (s : State) (bytes : List Byte) : Prop where
  frame : s.frameBytes = bytes
  stored : ∀ i, i < s.cnt.toNat → (s.buf.read i).isSome = true
  cntLe : s.cnt.toNat ≤ Config.maxFrame
  sumEq : s.sum = byteSum bytes
  noDone : s.done = false
  noRes : s.noResult

theorem State.Inv.inLine {s : State} (h : s.Inv) (hd : s.done = false) : s.InLine s.frameBytes :=
  ⟨rfl, h.stored, h.cntLe, h.sumEq, hd, h.notDone hd⟩

theorem State.inLine_startLine (s : State) (x : Bool) (d : Byte) : (s.startLine x d).InLine [] :=
  ⟨rfl, by simp, by simp, rfl, rfl, by simp [State.noResult]⟩

theorem State.InLine.noteHexerr {s : State} {bs : List Byte} (h : s.InLine bs) : s.noteHexerr.InLine bs :=
  ⟨h.frame, h.stored, h.cntLe, h.sumEq, h.noDone, h.noRes⟩

theorem State.InLine.dropByte {s : State} {bs : List Byte} (h : s.InLine bs) : s.dropByte.InLine bs :=
  ⟨h.frame, h.stored, h.cntLe, h.sumEq, h.noDone, h.noRes⟩

theorem State.InLine.withFeed {s : State} {bs : List Byte} (h : s.InLine bs) (q : List FeedEvent) :
    (s.withFeed q).InLine bs :=
  ⟨h.frame, h.stored, h.cntLe, h.sumEq, h.noDone, h.noRes⟩

theorem State.InLine.appendByte {s : State} {bs : List Byte} (h : s.InLine bs) (hc : s.cnt.toNat < Config.maxFrame)
    (d : Byte) : (s.appendByte d).InLine (bs ++ [d]) where
  frame := by rw [State.frameBytes_appendByte d hc, h.frame]
  stored := State.stored_appendByte d hc h.stored
  cntLe := by rw [State.appendByte_cnt_toNat d hc]; omega
  sumEq := by simp [accumulate, h.sumEq]
  noDone := h.noDone
  noRes := h.noRes

theorem State.InLine.length {s : State} {bs : List Byte} (h : s.InLine bs) : bs.length = s.cnt.toNat := by
  rw [← h.frame, State.frameBytes_length h.stored]

/-- Reading `BUF[i]` gives byte `i` of the line. -/
theorem State.InLine.readBuf_eq {s : State} {bs : List Byte} (h : s.InLine bs) {i : Nat} {b : Byte} :
    s.readBuf i = .ok b ↔ bs[i]? = some b := by
  rw [State.readBuf_eq_ok, ← h.frame]
  constructor
  · rintro ⟨hi, hb⟩
    rw [State.frameBytes_getElem? h.stored hi, hb]
  · intro hb
    have hi : i < s.cnt.toNat := by
      rw [← State.frameBytes_length h.stored]
      exact (List.getElem?_eq_some_iff.mp hb).1
    exact ⟨hi, by rw [← State.frameBytes_getElem? h.stored hi, hb]⟩

/-- The end of a line changes no result whose payload window has been written. -/
theorem State.result_endLine {t : State} (h : ∀ i, i < t.len.toNat → (t.buf.read (4 + i)).isSome = true) :
    t.endLine.result = t.result := by
  cases hd : t.done with
  | false => simp [State.result, hd]
  | true =>
  by_cases hs : t.status = 0
  · have hp : (List.range t.len.toNat).map t.endLine.payload = (List.range t.len.toNat).map t.payload := by
      apply List.map_congr_left
      intro i hi
      have hi := List.mem_range.mp hi
      have hv : t.payloadValid i = true := by simp [State.payloadValid, hd, hs, hi]
      have hv' : t.endLine.payloadValid i = true := hv
      obtain ⟨b, hb⟩ := Option.isSome_iff_exists.mp (h i hi)
      unfold State.payload
      rw [if_pos hv, if_pos hv']
      simp [Config.hdrBytes, hb]
    have hr : t.endLine.record = t.record := by
      simp only [State.record, State.addr32, State.endLine_rtype, State.endLine_offset, State.endLine_len,
        State.endLine_f0, State.endLine_f1, hp]
      rfl
    simp [State.result, hd, hs, hr]
  · have hs' : ¬t.status = 0#3 := hs
    simp [State.result, hd, hs']
    rfl

theorem bodyBytes_cons (w : BeatWord) (ws : List BeatWord) :
    bodyBytes (w :: ws) = (if beatHexerr w then [] else [beatData w]) ++ bodyBytes ws := by
  unfold bodyBytes
  cases h : beatHexerr w <;> simp [h]

theorem isLine_cons (w : BeatWord) (ws : List BeatWord) :
    isLine (w :: ws) = true ↔ (ws = [] ∧ beatLast w = true) ∨ (beatLast w = false ∧ isLine ws = true) := by
  cases ws with
  | nil => simp [isLine]
  | cons v vs => simp [isLine]

/-- The effect of a body beat on a line whose body so far delivered the bytes `f`: the frame holds the first 260 of
them, `OVF` says whether there were more (R92 to R94). -/
theorem beatEffect_inLine {s : State} {f : List Byte} (h : s.InLine (f.take 260)) (hp : s.phase = .body)
    (ho : s.ovf = decide (260 < f.length)) (x : Bool) (d : Byte) :
    ∃ u, beatEffect x d s = .next u ∧ u.InLine ((if x then f else f ++ [d]).take 260) ∧ u.phase = .body ∧
      u.mok = s.mok ∧ u.herr = (s.herr || x) ∧ u.ovf = decide (260 < (if x then f else f ++ [d]).length) ∧
      u.feed = s.feed := by
  have hl := h.length
  have hc := h.cntLe
  simp only [Config.maxFrame] at hc
  simp only [List.length_take] at hl
  unfold beatEffect
  simp only [hp]
  cases x with
  | true => exact ⟨_, rfl, by simpa using h.noteHexerr, hp, rfl, by simp, by simpa using ho, rfl⟩
  | false =>
    simp only [Bool.false_eq_true, if_false]
    by_cases hf : s.cnt.toNat = Config.maxFrame
    · rw [if_pos hf]
      simp only [Config.maxFrame] at hf
      refine ⟨_, rfl, ?_, hp, rfl, by simp, ?_, rfl⟩
      · rw [List.take_append_of_le_length (by omega)]
        exact h.dropByte
      · simp
        omega
    · rw [if_neg hf, storeByte_room d (by simp only [Config.maxFrame] at hf ⊢; omega)]
      simp only [Config.maxFrame] at hf
      refine ⟨_, rfl, ?_, hp, rfl, by simp, ?_, rfl⟩
      · have := h.appendByte (by simp only [Config.maxFrame]; omega) d
        rw [List.take_of_length_le (by omega)] at this
        rwa [List.take_of_length_le (by simp; omega)]
      · simp [ho]
        omega

/-- A run over body beats without `last`. -/
theorem runSteps_body (ws : List BeatWord) {s : State} {f : List Byte} {q : List FeedEvent}
    (h : s.InLine (f.take 260)) (hp : s.phase = .body) (ho : s.ovf = decide (260 < f.length))
    (hl : ∀ w ∈ ws, beatLast w = false) (hq : s.feed = beatEvents ws ++ q) :
    ∃ u, runSteps ws.length s = .next u ∧ u.InLine ((f ++ bodyBytes ws).take 260) ∧ u.phase = .body ∧
      u.mok = s.mok ∧ u.herr = (s.herr || ws.any beatHexerr) ∧
      u.ovf = decide (260 < (f ++ bodyBytes ws).length) ∧ u.feed = q := by
  induction ws generalizing s f with
  | nil =>
    exact ⟨s, rfl, by simpa [bodyBytes] using h, hp, rfl, by simp, by simpa [bodyBytes] using ho,
      by simpa [beatEvents] using hq⟩
  | cons w ws ih =>
    obtain ⟨u, hu, hin, hp', hm, hh, ho', hf⟩ :=
      beatEffect_inLine (h.withFeed (beatEvents ws ++ q)) hp ho (beatHexerr w) (beatData w)
    obtain ⟨v, hv, r1, r2, r3, r4, r5, r6⟩ := ih hin hp' ho' (fun w' hw => hl w' (by simp [hw])) hf
    have hb : f ++ bodyBytes (w :: ws) = (if beatHexerr w then f else f ++ [beatData w]) ++ bodyBytes ws := by
      rw [bodyBytes_cons]
      cases beatHexerr w <;> simp
    rw [hb]
    refine ⟨v, ?_, r1, r2, by rw [r3, hm]; rfl, by rw [r4, hh]; simp [Bool.or_assoc], r5, r6⟩
    rw [List.length_cons, runSteps_succ, step_beat (w := w) (rest := beatEvents ws ++ q) (by simpa [beatEvents] using hq),
      hl w (by simp)]
    simp only [Bool.false_eq_true, if_false, hu, andThen_next, hv]

/-- A run over the body of a line ends in the evaluation of what the body delivered. -/
theorem runSteps_toEnd (ws : List BeatWord) {s : State} {f : List Byte} (h : s.InLine (f.take 260))
    (hp : s.phase = .body) (ho : s.ovf = decide (260 < f.length)) (hl : isLine ws = true)
    (hq : s.feed = beatEvents ws) :
    ∃ u, runSteps ws.length s = andThen (eval u) (fun v => .next v.endLine) ∧
      u.InLine ((f ++ bodyBytes ws).take 260) ∧ u.mok = s.mok ∧ u.herr = (s.herr || ws.any beatHexerr) ∧
      u.ovf = decide (260 < (f ++ bodyBytes ws).length) ∧ u.feed = [] := by
  induction ws generalizing s f with
  | nil => simp [isLine] at hl
  | cons w ws ih =>
    have hq' : s.feed = .beat w :: beatEvents ws := by simpa [beatEvents] using hq
    obtain ⟨u, hu, hin, hp', hm, hh, ho', hf⟩ :=
      beatEffect_inLine (h.withFeed (beatEvents ws)) hp ho (beatHexerr w) (beatData w)
    have hb : f ++ bodyBytes (w :: ws) = (if beatHexerr w then f else f ++ [beatData w]) ++ bodyBytes ws := by
      rw [bodyBytes_cons]
      cases beatHexerr w <;> simp
    rw [hb]
    rcases (isLine_cons w ws).mp hl with ⟨rfl, hw⟩ | ⟨hw, hws⟩
    · refine ⟨u, ?_, by simpa [bodyBytes] using hin, hm, by simpa using hh, by simpa [bodyBytes] using ho',
        by simpa [beatEvents] using hf⟩
      rw [List.length_cons, runSteps_succ, step_beat hq', hw]
      simp only [if_true, execLast, hu, andThen_next]
      cases eval u <;> rfl
    · obtain ⟨v, hv, r1, r2, r3, r4, r5⟩ := ih hin hp' ho' hws hf
      refine ⟨v, ?_, r1, by rw [r2, hm]; rfl, by rw [r3, hh]; simp [Bool.or_assoc], r4, r5⟩
      rw [List.length_cons, runSteps_succ, step_beat hq', hw]
      simp only [Bool.false_eq_true, if_false, hu, andThen_next, hv]

/-- A line, from any state between lines, ends in the evaluation of its first character's marker test, its hex flags
and its bytes. -/
theorem runLine_eval {s : State} {w : BeatWord} {ws : List BeatWord} (hp : s.phase = .idle)
    (hl : isLine (w :: ws) = true) :
    ∃ u, runLine s (w :: ws) = andThen (eval u) (fun v => .next v.endLine) ∧ u.InLine ((bodyBytes ws).take 260) ∧
      u.mok = markerOk (beatData w) ∧ u.herr = (w :: ws).any beatHexerr ∧
      u.ovf = decide (260 < (bodyBytes ws).length) ∧ u.feed = [] := by
  unfold runLine
  have hq : (s.withFeed (beatEvents (w :: ws))).feed = .beat w :: beatEvents ws := rfl
  have he : ∀ q, beatEffect (beatHexerr w) (beatData w) ((s.withFeed (beatEvents (w :: ws))).withFeed q) =
      .next ((s.withFeed q).startLine (beatHexerr w) (beatData w)) := by
    intro q
    simp [beatEffect, hp, State.withFeed]
  rcases (isLine_cons w ws).mp hl with ⟨rfl, hw⟩ | ⟨hw, hws⟩
  · refine ⟨(s.withFeed []).startLine (beatHexerr w) (beatData w), ?_, State.inLine_startLine _ _ _, rfl, by simp, rfl,
      rfl⟩
    have he := he []
    simp only [beatEvents] at he
    rw [List.length_cons, runSteps_succ, step_beat hq, hw]
    simp only [if_true, execLast, beatEvents, List.map_nil, he, andThen_next]
    cases eval _ <;> rfl
  · obtain ⟨v, hv, r1, r2, r3, r4, r5⟩ := runSteps_toEnd ws (f := [])
      (State.inLine_startLine (s.withFeed (beatEvents ws)) (beatHexerr w) (beatData w)) rfl rfl hws rfl
    refine ⟨v, ?_, by simpa using r1, r2, by simpa using r3, by simpa using r4, r5⟩
    rw [List.length_cons, runSteps_succ, step_beat hq, hw]
    simp only [Bool.false_eq_true, if_false, he, andThen_next, hv]

end Sys2Proof.Machine
end

