-- ==== Sys2Proof/Laws/PerInstr.lean ====
section
/-! SUPPORT. One lemma per instruction: the encoder's word satisfies the mask and match of its row. -/

namespace Sys2Proof.Laws.EncodingMatchesRow

/-- The word of a well-formed instruction fits its width and has its row's `match` under its row's `mask`
(opcode_table.json, 30_encoding.md R61, R69). -/
def Statement (i : Instr) : Prop :=
  i.wellFormed = true → encode i < 2 ^ i.bits ∧ encode i &&& i.rowMask = i.rowMatch

/-- A header's low byte is its tag. -/
theorem header_and (l : Byte) (o : Half) (t : Byte) (m : Nat) (hm : m < 256) :
    (headerWord l o t).toNat &&& m = t.toNat &&& m := by
  have h : (headerWord l o t).toNat % 2 ^ 8 = t.toNat := by
    rw [headerWord_toNat]
    have := t.isLt
    omega
  rw [← h]
  apply Nat.eq_of_testBit_eq
  intro i
  simp only [Nat.testBit_and, Nat.testBit_mod_two_pow]
  by_cases hi : i < 8
  · simp [hi]
  · have hm8 : m < 2 ^ i := Nat.lt_of_lt_of_le hm (Nat.pow_le_pow_right (n := 2) (by omega) (by omega : 8 ≤ i))
    simp [Nat.testBit_lt_two_pow hm8]

theorem mark (h : Bool) (d : Byte) : Statement (.mark h d) :=
  fun _ => ⟨(beatWord false h d).isLt, Nat.and_zero _⟩

theorem byte (d : Byte) : Statement (.byte d) := by
  refine fun _ => ⟨(beatWord false false d).isLt, ?_⟩
  revert d
  decide

theorem byteOverflow (d : Byte) : Statement (.byteOverflow d) := by
  refine fun _ => ⟨(beatWord false false d).isLt, ?_⟩
  revert d
  decide

theorem hexerr (d : Byte) : Statement (.hexerr d) := by
  refine fun _ => ⟨(beatWord false true d).isLt, ?_⟩
  revert d
  decide

theorem last (h : Bool) (d : Byte) : Statement (.last h d) := by
  refine fun _ => ⟨(beatWord true h d).isLt, ?_⟩
  revert h d
  decide

theorem data (l : Byte) (o : Half) : Statement (.data l o) :=
  fun _ => ⟨(headerWord l o 0).isLt, header_and l o 0 0xFF (by decide)⟩

theorem eof (l : Byte) (o : Half) : Statement (.eof l o) :=
  fun _ => ⟨(headerWord l o 1).isLt, header_and l o 1 0xFF (by decide)⟩

theorem esa (l : Byte) (o : Half) : Statement (.esa l o) :=
  fun _ => ⟨(headerWord l o 2).isLt, header_and l o 2 0xFF (by decide)⟩

theorem ssa (l : Byte) (o : Half) : Statement (.ssa l o) :=
  fun _ => ⟨(headerWord l o 3).isLt, header_and l o 3 0xFF (by decide)⟩

theorem ela (l : Byte) (o : Half) : Statement (.ela l o) :=
  fun _ => ⟨(headerWord l o 4).isLt, header_and l o 4 0xFF (by decide)⟩

theorem sla (l : Byte) (o : Half) : Statement (.sla l o) :=
  fun _ => ⟨(headerWord l o 5).isLt, header_and l o 5 0xFF (by decide)⟩

theorem unknown06 (l : Byte) (o : Half) (t : Byte) : Statement (.unknown06 l o t) := by
  refine fun hw => ⟨(headerWord l o t).isLt, (header_and l o t 0xFE (by decide)).trans ?_⟩
  have key : ∀ t : Byte, Instr.wellFormed (.unknown06 0 0 t) = true → t.toNat &&& 0xFE = 6 := by decide
  exact key t hw

theorem unknown08 (l : Byte) (o : Half) (t : Byte) : Statement (.unknown08 l o t) := by
  refine fun hw => ⟨(headerWord l o t).isLt, (header_and l o t 0xF8 (by decide)).trans ?_⟩
  have key : ∀ t : Byte, Instr.wellFormed (.unknown08 0 0 t) = true → t.toNat &&& 0xF8 = 8 := by decide
  exact key t hw

theorem unknown10 (l : Byte) (o : Half) (t : Byte) : Statement (.unknown10 l o t) := by
  refine fun hw => ⟨(headerWord l o t).isLt, (header_and l o t 0xF0 (by decide)).trans ?_⟩
  have key : ∀ t : Byte, Instr.wellFormed (.unknown10 0 0 t) = true → t.toNat &&& 0xF0 = 16 := by decide
  exact key t hw

theorem unknown20 (l : Byte) (o : Half) (t : Byte) : Statement (.unknown20 l o t) := by
  refine fun hw => ⟨(headerWord l o t).isLt, (header_and l o t 0xE0 (by decide)).trans ?_⟩
  have key : ∀ t : Byte, Instr.wellFormed (.unknown20 0 0 t) = true → t.toNat &&& 0xE0 = 32 := by decide
  exact key t hw

theorem unknown40 (l : Byte) (o : Half) (t : Byte) : Statement (.unknown40 l o t) := by
  refine fun hw => ⟨(headerWord l o t).isLt, (header_and l o t 0xC0 (by decide)).trans ?_⟩
  have key : ∀ t : Byte, Instr.wellFormed (.unknown40 0 0 t) = true → t.toNat &&& 0xC0 = 64 := by decide
  exact key t hw

theorem unknown80 (l : Byte) (o : Half) (t : Byte) : Statement (.unknown80 l o t) := by
  refine fun hw => ⟨(headerWord l o t).isLt, (header_and l o t 0x80 (by decide)).trans ?_⟩
  have key : ∀ t : Byte, Instr.wellFormed (.unknown80 0 0 t) = true → t.toNat &&& 0x80 = 128 := by decide
  exact key t hw

end Sys2Proof.Laws.EncodingMatchesRow
end

