-- ==== Sys2Proof/Tests/Slice0.lean ====
section
/-! SUPPORT. Tests on fixed values, and for every obligation with hypotheses a concrete state that meets them.
Expected values are those of spec/95_test_vectors.md, whose section and row each test names. -/

namespace Sys2Proof.Tests

open Sys2Proof.Machine

/-- The cells of a frame, from an address on. -/
def cells : Nat → List Byte → Memory
  | _, [] => []
  | i, b :: bs => (i, b) :: cells (i + 1) bs

/-- A marked line of which these bytes have been stored. -/
def midLine (bs : List Byte) : State :=
  { State.reset with phase := .body, mok := true, cnt := BitVec.ofNat 9 bs.length, sum := byteSum bs, buf := cells 0 bs }

/-- The state a step answers, if it answers one. -/
def after : StepOutcome → Option State
  | .next s => some s
  | .fault _ | .refused _ => none

/-- `STATUS`, `CKC`, `CKE`, `RTYPE`, `LEN`, `OFFSET`, `F0`, `F1` and `DONE`, as the vectors list them. -/
def reportAfter (o : StepOutcome) : Option (Bool × StatusCode × Byte × Byte × Byte × Byte × Half × Half × Half) :=
  (after o).map State.report

/-! ### Well-formedness: each check refuses an ill-formed term -/

theorem test_tag_outside_06_07 : (Instr.unknown06 0 0 0x08).wellFormed = false := by decide
theorem test_tag_outside_08_0F : (Instr.unknown08 0 0 0x10).wellFormed = false := by decide
theorem test_tag_outside_10_1F : (Instr.unknown10 0 0 0x0F).wellFormed = false := by decide
theorem test_tag_outside_20_3F : (Instr.unknown20 0 0 0x40).wellFormed = false := by decide
theorem test_tag_outside_40_7F : (Instr.unknown40 0 0 0x80).wellFormed = false := by decide
theorem test_tag_outside_80_FF : (Instr.unknown80 0 0 0x7F).wellFormed = false := by decide

/-! ### Decoding: words written out from 30_encoding.md R60, R61, R64, R69 -/

theorem test_decode_mark : decode .idle 10 0b0000111010 = .instr (.mark false 0x3A) := by decide
theorem test_decode_mark_hexerr : decode .idle 10 0b0100111010 = .instr (.mark true 0x3A) := by decide
theorem test_decode_byte : decode .bodyRoom 10 0b0000001011 = .instr (.byte 0x0B) := by decide
theorem test_decode_byteOverflow : decode .bodyFull 10 0b0001010101 = .instr (.byteOverflow 0x55) := by decide
theorem test_decode_hexerr : decode .bodyFull 10 0b0100000000 = .instr (.hexerr 0) := by decide
theorem test_decode_last : decode .bodyRoom 10 0b1010100111 = .instr (.last false 0xA7) := by decide
theorem test_decode_last_hexerr : decode .idle 10 0b1100111010 = .instr (.last true 0x3A) := by decide
theorem test_decode_data : decode .idle 32 0x0B001000 = .instr (.data 0x0B 0x0010) := by decide
theorem test_decode_eof : decode .idle 32 0x00123401 = .instr (.eof 0x00 0x1234) := by decide
theorem test_decode_esa : decode .idle 32 0x02000002 = .instr (.esa 0x02 0x0000) := by decide
theorem test_decode_ssa : decode .idle 32 0x04000003 = .instr (.ssa 0x04 0x0000) := by decide
theorem test_decode_ela : decode .idle 32 0x02000004 = .instr (.ela 0x02 0x0000) := by decide
theorem test_decode_sla : decode .idle 32 0x04000005 = .instr (.sla 0x04 0x0000) := by decide
theorem test_decode_unknown06 : decode .idle 32 0x02000007 = .instr (.unknown06 0x02 0x0000 0x07) := by decide
theorem test_decode_unknown08 : decode .idle 32 0x0000000F = .instr (.unknown08 0x00 0x0000 0x0F) := by decide
theorem test_decode_unknown10 : decode .idle 32 0x00000010 = .instr (.unknown10 0x00 0x0000 0x10) := by decide
theorem test_decode_unknown20 : decode .idle 32 0x0012343F = .instr (.unknown20 0x00 0x1234 0x3F) := by decide
theorem test_decode_unknown40 : decode .idle 32 0x00000040 = .instr (.unknown40 0x00 0x0000 0x40) := by decide
theorem test_decode_unknown80 : decode .idle 32 0x000000FF = .instr (.unknown80 0x00 0x0000 0xFF) := by decide
theorem test_decode_rejects_eleven_bits : decode .idle 10 1024 = .rejected (.beatOverTenBits 1024) := by decide
theorem test_decode_rejects_width : decode .idle 24 0 = .rejected (.noRowOfThisWidth 24) := by decide

/-! ### Beats: section 3 -/

/-- Row 1. -/
theorem test_mark_from_reset :
    after (exec (.mark false 0x3A) State.reset) = some { State.reset with phase := .body, mok := true } := by decide

/-- Row 4: a first character that is not the marker, after an accepted record. -/
theorem test_mark_clears_the_report :
    after (exec (.mark false 0x00)
      { State.reset with done := true, rtype := 0x05, len := 0x04, f0 := 0x1234, f1 := 0x5678 }) =
      some { State.reset with phase := .body } := by decide

/-- Row 9: the carry out of bit 7 is dropped. -/
theorem test_byte_adds_modulo_256 :
    (after (exec (.byte 0x20) (midLine [0xF0, 0x00, 0x00]))).map (fun t => (t.buf.read 3, t.cnt, t.sum, t.ckgen)) =
      some (some 0x20, 4, 0x10, 0xF0) := by decide

/-- Row 11: the last byte that can be stored. -/
theorem test_byte_fills_the_frame :
    (after (exec (.byte 0x80) { State.reset with phase := .body, cnt := 259, sum := 0x80 })).map
      (fun t => (t.buf.read 259, t.cnt, t.sum, t.ovf)) = some (some 0x80, 260, 0x00, false) := by decide

/-- Row 12. -/
theorem test_byteOverflow_sets_ovf :
    after (exec (.byteOverflow 0x55) { State.reset with phase := .body, cnt := 260 }) =
      some { State.reset with phase := .body, cnt := 260, ovf := true } := by decide

/-- Row 15. -/
theorem test_hexerr_ignores_its_data :
    after (exec (.hexerr 0xAB) { State.reset with phase := .body, cnt := 4, sum := 0x01 }) =
      some { State.reset with phase := .body, cnt := 4, sum := 0x01, herr := true } := by decide

/-- Row 19. -/
theorem test_last_stores_then_evaluates :
    after (exec (.last false 0xFF) (midLine [0x00, 0x00, 0x00, 0x01])) =
      some { midLine [0x00, 0x00, 0x00, 0x01, 0xFF] with
             phase := .idle, done := true, ckc := 0xFF, cke := 0xFF, rtype := 0x01 } := by decide

/-- Row 7: `MARK.H.L 0x3A`. -/
theorem test_last_on_the_first_beat :
    after (exec (.last true 0x3A) State.reset) =
      some { State.reset with mok := true, herr := true, done := true, status := 2 } := by decide

/-! ### Records: sections 1 and 5, and 43_record_dispatch.md R141 to R147 -/

/-- R141: `:0000000000`, an empty Data record. -/
theorem test_data_empty :
    reportAfter (exec (.last false 0x00) (midLine [0x00, 0x00, 0x00, 0x00])) =
      some (true, 0, 0x00, 0x00, 0x00, 0x00, 0x0000, 0x0000, 0x0000) := by decide

/-- R142 corner case 1: `:00123401B9`. -/
theorem test_eof_offset_not_checked :
    reportAfter (exec (.last false 0xB9) (midLine [0x00, 0x12, 0x34, 0x01])) =
      some (true, 0, 0xB9, 0xB9, 0x01, 0x00, 0x1234, 0x0000, 0x0000) := by decide

/-- R142 corner case 2: `:01000001AA54`. -/
theorem test_eof_with_a_payload :
    reportAfter (exec (.last false 0x54) (midLine [0x01, 0x00, 0x00, 0x01, 0xAA])) =
      some (true, 4, 0x54, 0x54, 0x00, 0x00, 0x0000, 0x0000, 0x0000) := by decide

/-- Section 1.1 row 3: `:0200000212FEEC`. -/
theorem test_esa :
    reportAfter (exec (.last false 0xEC) (midLine [0x02, 0x00, 0x00, 0x02, 0x12, 0xFE])) =
      some (true, 0, 0xEC, 0xEC, 0x02, 0x02, 0x0000, 0x12FE, 0x0000) := by decide

/-- Section 1.1 row 4: `:04000003123438007B`. -/
theorem test_ssa :
    reportAfter (exec (.last false 0x7B) (midLine [0x04, 0x00, 0x00, 0x03, 0x12, 0x34, 0x38, 0x00])) =
      some (true, 0, 0x7B, 0x7B, 0x03, 0x04, 0x0000, 0x1234, 0x3800) := by decide

/-- Section 1.1 row 5: `:02000004ABCD82`. -/
theorem test_ela :
    reportAfter (exec (.last false 0x82) (midLine [0x02, 0x00, 0x00, 0x04, 0xAB, 0xCD])) =
      some (true, 0, 0x82, 0x82, 0x04, 0x02, 0x0000, 0xABCD, 0x0000) := by decide

/-- Section 1.1 row 6: `:0400000512345678E3`. -/
theorem test_sla :
    reportAfter (exec (.last false 0xE3) (midLine [0x04, 0x00, 0x00, 0x05, 0x12, 0x34, 0x56, 0x78])) =
      some (true, 0, 0xE3, 0xE3, 0x05, 0x04, 0x0000, 0x1234, 0x5678) := by decide

/-- R147: `:00000006FA`. -/
theorem test_first_unknown_tag :
    reportAfter (exec (.last false 0xFA) (midLine [0x00, 0x00, 0x00, 0x06])) =
      some (true, 5, 0xFA, 0xFA, 0x00, 0x00, 0x0000, 0x0000, 0x0000) := by decide

/-- R147: `:000000FF01`. -/
theorem test_last_unknown_tag :
    reportAfter (exec (.last false 0x01) (midLine [0x00, 0x00, 0x00, 0xFF])) =
      some (true, 5, 0x01, 0x01, 0x00, 0x00, 0x0000, 0x0000, 0x0000) := by decide

/-- R114: `:00000001FE` reports computed 0xFF and expected 0xFE. -/
theorem test_bad_checksum :
    reportAfter (exec (.last false 0xFE) (midLine [0x00, 0x00, 0x00, 0x01])) =
      some (true, 3, 0xFF, 0xFE, 0x00, 0x00, 0x0000, 0x0000, 0x0000) := by decide

/-- R130: `:01FF`, whose checksum is right. -/
theorem test_short_frame :
    reportAfter (exec (.last false 0xFF) (midLine [0x01])) =
      some (true, 4, 0xFF, 0xFF, 0x00, 0x00, 0x0000, 0x0000, 0x0000) := by decide

/-- R167: `:01000006F9`, wrong declared length and unknown tag, is `LengthMismatch`. -/
theorem test_declared_length_before_tag :
    reportAfter (exec (.last false 0xF9) (midLine [0x01, 0x00, 0x00, 0x06])) =
      some (true, 4, 0xF9, 0xF9, 0x00, 0x00, 0x0000, 0x0000, 0x0000) := by decide

/-- Section 2: `CK` of the empty sequence and of a sequence whose sum wraps. -/
theorem test_ck : ck [] = 0x00 ∧ ck [0xFF, 0x01] = 0x00 ∧ ck [0x02, 0x00, 0x00, 0x02, 0x12, 0xFE] = 0xEC := by decide

/-- R65: `LINE ":00000001FF"`, in character codes. -/
theorem test_line_words :
    lineWords [0x3A, 0x30, 0x30, 0x30, 0x30, 0x30, 0x30, 0x30, 0x31, 0x46, 0x46] =
      [0x03A, 0x000, 0x000, 0x000, 0x001, 0x2FF] := by decide

/-- R65: `LINE ":0000000"`, an odd body. -/
theorem test_line_words_odd :
    lineWords [0x3A, 0x30, 0x30, 0x30, 0x30, 0x30, 0x30, 0x30] = [0x03A, 0x000, 0x000, 0x000, 0x300] := by decide

/-! ### Placing a word of the opcode table -/

theorem test_placed_byte :
    decodeTableWord 16 0x00B = some (.byte 0x0B) ∧
      (after (step (State.reset.withFetchWord 16 0x00B))).map (fun t => (t.buf, t.cnt)) = some ([(0, 0x0B)], 1) := by
  decide

theorem test_placed_header :
    decodeTableWord 32 0x02000004 = some (.ela 0x02 0x0000) ∧
      reportAfter (step (State.reset.withFetchWord 32 0x02000004)) =
        some (true, 0, 0xFA, 0xFA, 0x04, 0x02, 0x0000, 0x0000, 0x0000) := by decide

/-! ### Witnesses: for each obligation with hypotheses, a state and operands that meet them all

A name `witness_<Name>` is of the obligation `<Name>`; one with several clauses has a witness for each. -/

/-- Section 3 row 19, before its last beat: header of `:00000001FF`. -/
def headerLine : State := midLine [0x00, 0x00, 0x00, 0x01]

/-- Section 1.1 row 3, before its last beat, with the checksum byte stored. -/
def esaLine : State := midLine [0x02, 0x00, 0x00, 0x02, 0x12, 0xFE, 0xEC]

/-- Section 1.1 row 4, with its checksum byte stored. -/
def ssaLine : State := midLine [0x04, 0x00, 0x00, 0x03, 0x12, 0x34, 0x38, 0x00, 0x7B]

/-- Section 1.1 row 3, accepted. -/
def esaAccepted : State :=
  { esaLine with phase := .idle, done := true, ckc := 0xEC, cke := 0xEC, rtype := 0x02, len := 2, f0 := 0x12FE }

/-- What a line in progress must be for the invariant. -/
theorem midLine_inv {bs : List Byte} (hw : (midLine bs).buf.wf = true)
    (hs : ∀ i, i < (midLine bs).cnt.toNat → ((midLine bs).buf.read i).isSome = true)
    (hc : (midLine bs).cnt.toNat ≤ Config.maxFrame) (hf : (midLine bs).frameBytes = bs) : (midLine bs).Inv where
  bufWf := hw
  stored := hs
  cntLe := hc
  sumEq := by rw [hf]; rfl
  ovfFull := nofun
  doneIdle := nofun
  notDone := fun _ => ⟨rfl, rfl, rfl, rfl, rfl, rfl, rfl, rfl⟩
  accepted := nofun
  statusLe := Nat.zero_le 5

theorem headerLine_inv : headerLine.Inv := midLine_inv (by decide) (by decide) (by decide) (by decide)
theorem esaLine_inv : esaLine.Inv := midLine_inv (by decide) (by decide) (by decide) (by decide)
theorem shortLine_inv : (midLine [0x01, 0xFF]).Inv := midLine_inv (by decide) (by decide) (by decide) (by decide)

theorem esaAccepted_inv : esaAccepted.Inv where
  bufWf := by decide
  stored := by decide
  cntLe := by decide
  sumEq := by decide
  ovfFull := nofun
  doneIdle := fun _ => rfl
  notDone := nofun
  accepted := fun _ _ => by decide
  statusLe := Nat.zero_le 5

theorem esaAccepted_reportInv : esaAccepted.ReportInv :=
  ⟨fun _ _ => ⟨rfl, rfl, rfl⟩, by decide, by decide, fun _ => rfl, by decide⟩

/-- A state with one beat delivered. -/
def fed (s : State) (w : BeatWord) : State := s.withFeed [.beat w]

theorem witness_ResetEventForgetsTheLine : (headerLine.withFeed [.reset, .beat 0x000]).feed = .reset :: [.beat 0x000] := rfl

theorem witness_MarkStartsLine : State.reset.phase = .idle ∧ esaAccepted.phase = .idle := by decide

theorem witness_ByteStoresAddsAndCounts : ({ State.reset with phase := .body, cnt := 259 } : State).cnt.toNat < 260 := by
  decide

theorem witness_LastEvaluatesAfterTheBeat :
    (after (exec (decodeBeat headerLine.beatContext (beatWord false false 0xFF)) headerLine)).isSome = true := by decide

theorem witness_LastBeatCompletesTheLine : headerLine.Inv ∧ esaAccepted.Inv := ⟨headerLine_inv, esaAccepted_inv⟩

theorem witness_StepFollowsThePseudocode : (fed headerLine 0x2FF).feed = .beat 0x2FF :: [] := rfl

theorem witness_StepRunsTheDecodedBeat : (fed State.reset 0x03A).feed = .beat 0x03A :: [] ∧ State.reset.feed = [] := ⟨rfl, rfl⟩

/-- Both widths, each at the last word of its row and with `last` set and not. -/
theorem witness_StepRunsThePlacedTableWord :
    decodeTableWord 16 0x0FF = some (.byte 0xFF) ∧ decodeTableWord 16 0x3FF = some (.last true 0xFF) ∧
      decodeTableWord 32 0xFFFFFFFF = some (.unknown80 0xFF 0xFFFF 0xFF) := by decide

theorem witness_DataAcceptsEveryLength :
    esaAccepted.done = true ∧ 1 < (2 : Byte).toNat ∧ esaAccepted.readBuf (4 + 1) = .ok 0xFE := ⟨rfl, by decide, rfl⟩

theorem witness_EofAcceptsOnlyAnEmptyPayload : (0 : Byte).toNat = 0 ∧ (1 : Byte).toNat ≠ 0 := by decide

theorem witness_EsaReportsTheSegment :
    (2 : Byte).toNat = 2 ∧ esaLine.readBuf 4 = .ok 0x12 ∧ esaLine.readBuf 5 = .ok 0xFE ∧
      (1 : Byte).toNat ≠ 2 ∧ (3 : Byte).toNat ≠ 2 := ⟨rfl, rfl, rfl, by decide, by decide⟩

theorem witness_SsaReportsSegmentAndPointer :
    (4 : Byte).toNat = 4 ∧ ssaLine.readBuf 4 = .ok 0x12 ∧ ssaLine.readBuf 5 = .ok 0x34 ∧ ssaLine.readBuf 6 = .ok 0x38 ∧
      ssaLine.readBuf 7 = .ok 0x00 ∧ (3 : Byte).toNat ≠ 4 ∧ (5 : Byte).toNat ≠ 4 :=
  ⟨rfl, rfl, rfl, rfl, rfl, by decide, by decide⟩

theorem witness_ElaReportsTheUpperHalf :
    (2 : Byte).toNat = 2 ∧ esaLine.readBuf 4 = .ok 0x12 ∧ esaLine.readBuf 5 = .ok 0xFE ∧ (0 : Byte).toNat ≠ 2 :=
  ⟨rfl, rfl, rfl, by decide⟩

theorem witness_SlaReportsTheAddress :
    (4 : Byte).toNat = 4 ∧ ssaLine.readBuf 4 = .ok 0x12 ∧ ssaLine.readBuf 5 = .ok 0x34 ∧ ssaLine.readBuf 6 = .ok 0x38 ∧
      ssaLine.readBuf 7 = .ok 0x00 ∧ (2 : Byte).toNat ≠ 4 := ⟨rfl, rfl, rfl, rfl, rfl, by decide⟩

/-- The first and the last unknown tag. -/
theorem witness_UnknownTagsAreRejected :
    5 < (headerTag 0x00000006).toNat ∧ 5 < (headerTag 0xFFFFFFFF).toNat := by decide

/-- Every clause: the six known tags and the two ends of the unknown range. -/
theorem witness_DispatchRunsTheDecodedRecord :
    headerTag 0x02000000 = 0x00 ∧ headerTag 0x02000001 = 0x01 ∧ headerTag 0x02000002 = 0x02 ∧
      headerTag 0x02000003 = 0x03 ∧ headerTag 0x02000004 = 0x04 ∧ headerTag 0x02000005 = 0x05 ∧
      5 < (headerTag 0x02000006).toNat ∧ 5 < (headerTag 0x020000FF).toNat := by decide

/-- A known tag with another width, and every tag of the table of widths. -/
theorem witness_WrongWidthIsLengthMismatch :
    ((headerTag 0x01000001).toNat ≤ 5 ∧ widthFits (headerTag 0x01000001) (headerLength 0x01000001).toNat = false) ∧
      ((headerTag 0x00000000).toNat ≤ 5 ∧ headerTag 0x00000000 = 0) ∧
      (headerTag 0x00000001).toNat = 1 ∧ (headerTag 0x02000002).toNat = 2 ∧ (headerTag 0x04000003).toNat = 3 ∧
      (headerTag 0x02000004).toNat = 4 ∧ (headerTag 0x04000005).toNat = 5 := by decide

theorem witness_MissingMarkerIsCheckedFirst : State.reset.mok = false := rfl

theorem witness_MalformedHexIsCheckedSecond :
    (headerLine.noteHexerr.mok = true ∧ headerLine.noteHexerr.herr = true) ∧
      headerLine.dropByte.mok = true ∧ headerLine.dropByte.ovf = true := by decide

theorem witness_EmptyFrameIsLengthMismatch :
    let s := midLine []
    s.mok = true ∧ s.herr = false ∧ s.ovf = false ∧ s.cnt.toNat = 0 := by decide

/-- A frame whose checksum is right, and one whose checksum is not. -/
theorem witness_VerifyComparesTheChecksums :
    (esaLine.Inv ∧ esaLine.mok = true ∧ esaLine.herr = false ∧ esaLine.ovf = false ∧ 1 ≤ esaLine.cnt.toNat ∧
      ck esaLine.frameBytes.dropLast = 0xEC) ∧
      headerLine.Inv ∧ headerLine.mok = true ∧ headerLine.herr = false ∧ headerLine.ovf = false ∧
      1 ≤ headerLine.cnt.toNat ∧ ck headerLine.frameBytes.dropLast ≠ 0x01 :=
  ⟨⟨esaLine_inv, by decide⟩, headerLine_inv, by decide⟩

/-- R130 corner case `:01FF` (two bytes), and R131 corner case `:01000000FF`. -/
theorem witness_LengthIsCheckedAfterTheChecksum :
    ((midLine [0x01, 0xFF]).Inv ∧ (midLine [0x01, 0xFF]).sum = 0 ∧ (midLine [0x01, 0xFF]).frameBytes.head? = some 0x01 ∧
      (midLine [0x01, 0xFF]).frameBytes.getLast? = some 0xFF ∧ (midLine [0x01, 0xFF]).frameBytes.length < 5) ∧
      let s := midLine [0x01, 0x00, 0x00, 0x00, 0xFF]
      s.Inv ∧ s.sum = 0 ∧ s.frameBytes.head? = some 0x01 ∧ s.frameBytes.getLast? = some 0xFF ∧
        s.frameBytes.length ≠ (0x01 : Byte).toNat + 5 ∧ s.mok = true ∧ s.herr = false ∧ s.ovf = false :=
  ⟨⟨shortLine_inv, by decide⟩, midLine_inv (by decide) (by decide) (by decide) (by decide), by decide⟩

theorem witness_SoundFrameIsDispatched :
    esaLine.Inv ∧ esaLine.mok = true ∧ esaLine.herr = false ∧ esaLine.ovf = false ∧ esaLine.sum = 0 ∧
      esaLine.frameBytes = 0x02 :: 0x00 :: 0x00 :: 0x02 :: [0x12, 0xFE, 0xEC] ∧
      [0x12, 0xFE, (0xEC : Byte)].getLast? = some 0xEC ∧ [0x12, 0xFE, (0xEC : Byte)].length = (0x02 : Byte).toNat + 1 :=
  ⟨esaLine_inv, by decide⟩

theorem witness_EvalWritesOnlyTheResult : (after (eval esaLine)).isSome = true := by decide

theorem witness_EvalComputesTheFrameResult : esaLine.Inv ∧ esaLine.done = false := ⟨esaLine_inv, rfl⟩

theorem witness_CkIsTheOneZeroingByte :
    ((([0xFF, 0xFF] : List Byte).map BitVec.toNat).sum + (0x02 : Byte).toNat) % 256 = 0 := by decide

theorem witness_CkIsAdditiveAndUnordered : List.Perm [(0xFF : Byte), 0x01] [0x01, 0xFF] := List.Perm.swap _ _ []

theorem witness_CkgenIsTheChecksumOfTheFrame : headerLine.Inv := headerLine_inv

/-- The longest sequence of bytes before a checksum. -/
theorem witness_CkgenClosesTheFrame :
    State.reset.phase = .idle ∧ (List.replicate 259 (0xFF : Byte)).length ≤ 259 := ⟨rfl, by rw [List.length_replicate]⟩

/-- The line `:00000001FF`, its last body beat changed. -/
theorem witness_OneChangedByteIsDetected :
    let ws : List BeatWord := [0x03A, 0x000, 0x000, 0x000, 0x001, 0x2FF]
    State.reset.phase = .idle ∧ isLine ws = true ∧ (after (runLine State.reset ws)).map State.status = some 0 ∧
      1 ≤ 5 ∧ ws[5]? = some 0x2FF ∧ beatLast 0x2FE = beatLast 0x2FF ∧ beatHexerr 0x2FE = beatHexerr 0x2FF ∧
      beatData 0x2FE ≠ beatData 0x2FF := by decide

theorem witness_StepKeepsTheInvariants :
    (fed headerLine 0x2FF).Inv ∧ (after (step (fed headerLine 0x2FF))).isSome = true :=
  ⟨headerLine_inv.withFeed _, by decide⟩

theorem witness_StepKeepsTheReportSound :
    esaAccepted.Inv ∧ esaAccepted.ReportInv ∧ (after (step esaAccepted)).isSome = true :=
  ⟨esaAccepted_inv, esaAccepted_reportInv, by decide⟩

theorem witness_StepKeepsTheFrameCanonical :
    (fed headerLine 0x0AA).buf.wf = true ∧ (after (step (fed headerLine 0x0AA))).isSome = true := by decide

theorem witness_StepNeverStops : (fed headerLine 0x3FF).Inv ∧ (fed headerLine 0x3FF).feed = .beat 0x3FF :: [] ∧
    beatLast 0x3FF = true := ⟨headerLine_inv.withFeed _, rfl, by decide⟩

theorem witness_PhaseFollowsTheLastFlag :
    (fed State.reset 0x03A).feed = .beat 0x03A :: [] ∧ (after (step (fed State.reset 0x03A))).isSome = true := ⟨rfl, by decide⟩

/-- A first beat, and a body beat on a full frame. -/
theorem witness_FlagsAreStickyWithinALine :
    ((after (step (fed State.reset 0x13A))).isSome = true ∧ (fed State.reset 0x13A).phase = .idle) ∧
      let s : State := fed { State.reset with phase := .body, cnt := 260 } 0x055
      (after (step s)).isSome = true ∧ s.phase = .body ∧ s.cnt.toNat = 260 := by decide

/-- A store at the last cell, and a dropped byte. -/
theorem witness_BeatWritesOnlyTheCellAtCnt :
    (after (step (fed { State.reset with phase := .body, cnt := 259 } 0x080))).isSome = true ∧
      (after (step (fed { State.reset with phase := .body, cnt := 260 } 0x080))).isSome = true := by decide

theorem witness_BodyBeatKeepsTheReport :
    (fed headerLine 0x0FF).phase = .body ∧ beatLast 0x0FF = false ∧
      (after (step (fed headerLine 0x0FF))).isSome = true := by decide

theorem witness_ReadsAreDefinedBelowCnt : headerLine.Inv ∧ 3 < headerLine.cnt.toNat ∧ ¬4 < headerLine.cnt.toNat :=
  ⟨headerLine_inv, by decide⟩

/-- The last byte of the payload window. -/
theorem witness_OutputsFollowTheRegisters :
    esaAccepted.Inv ∧ esaAccepted.done = true ∧ esaAccepted.status = 0 ∧ 1 < esaAccepted.len.toNat :=
  ⟨esaAccepted_inv, by decide⟩

/-- A line of one beat and a line of six. -/
theorem witness_LineEndsWithItsResult :
    State.reset.phase = .idle ∧ isLine [0x23A] = true ∧ isLine [0x03A, 0x000, 0x000, 0x000, 0x001, 0x2FF] = true := by
  decide

theorem witness_LinesDoNotInfluenceEachOther :
    State.reset.phase = .idle ∧ esaAccepted.phase = .idle ∧ isLine [0x03A, 0x000, 0x300] = true := by decide

theorem witness_LineWithoutMarkerIsMissingMarker :
    State.reset.phase = .idle ∧ isLine (0x03B :: [0x000, 0x300]) = true ∧ beatData 0x03B ≠ 0x3A := by decide

/-- A body of zeros of any number, its last beat marked. -/
theorem isLine_zeros (n : Nat) : isLine (List.replicate n (0x000 : BeatWord) ++ [0x200]) = true := by
  induction n with
  | zero => rfl
  | succ n ih => exact (isLine_cons _ _).mpr (.inr ⟨by decide, ih⟩)

/-- A codec failure, and 261 bytes. -/
theorem witness_BadHexAnywhereIsMalformedHex :
    (isLine (0x03A :: [0x1AB, 0x2FF]) = true ∧ beatData 0x03A = 0x3A ∧ beatHexerr 0x1AB = true) ∧
      let body := List.replicate 260 (0x000 : BeatWord) ++ [0x200]
      isLine (0x03A :: body) = true ∧ 260 < body.length :=
  ⟨by decide, (isLine_cons _ _).mpr (.inr ⟨by decide, isLine_zeros 260⟩), by
    rw [List.length_append, List.length_replicate]; decide⟩

/-- The longest Data record, and the largest address. -/
theorem witness_CanonicalFrameRoundTrips :
    State.reset.phase = .idle ∧ (Record.data 0xFFFE (List.replicate 255 0xAA)).constructible = true ∧
      (Record.startLinearAddress 0xFFFFFFFF).constructible = true :=
  ⟨rfl, by rw [Record.constructible, List.length_replicate]; decide, rfl⟩

/-- Each row at an end of its range, in a context it stands in. -/
theorem witness_DecodeOfEncodeIsTheInstruction :
    ((Instr.mark true 0xFF).wellFormed = true ∧ (Instr.mark true 0xFF).admits .idle = true) ∧
      ((Instr.byteOverflow 0x55).wellFormed = true ∧ (Instr.byteOverflow 0x55).admits .bodyFull = true) ∧
      ((Instr.unknown06 0 0 0x07).wellFormed = true ∧ (Instr.unknown06 0 0 0x07).admits .idle = true) ∧
      (Instr.unknown80 0xFF 0xFFFF 0xFF).wellFormed = true ∧ (Instr.unknown80 0xFF 0xFFFF 0xFF).admits .idle = true := by
  decide

end Sys2Proof.Tests
end

section
/-! Proofs: what one step keeps of the state (10_state.md R11 to R31). -/

namespace Sys2Proof.Machine

/-! ### What `EVAL` writes -/

/-- Every evaluation ends in the report of an error or of a record (42_framing.md R125, R134). -/
theorem eval_reports {s t : State} (h : eval s = .next t) :
    ∃ c e, (∃ x, t = (s.markDone.recordChecksums c e).reportError x) ∨
      ∃ tag l o a b, t = (s.markDone.recordChecksums c e).reportRecord tag l o a b := by
  rcases eval_next h with ⟨-, rfl⟩ | ⟨-, -, rfl⟩ | ⟨-, -, -, rfl⟩ |
    ⟨_, _, -, -, -, -, rfl, ⟨-, rfl⟩ | ⟨-, _, -, rfl⟩ | ⟨-, _, _, _, _, _, _, -, -, -, -, -, -, rfl⟩⟩
  case inr.inr.inr.inr.inr => exact ⟨_, _, .inr ⟨_, _, _, _, _, rfl⟩⟩
  case inr.inr.inr.inl | inr.inr.inr.inr.inl => exact ⟨_, _, .inl ⟨_, rfl⟩⟩
  all_goals exact ⟨s.ckc, s.cke, .inl ⟨_, rfl⟩⟩

/-- `EVAL` writes `DONE` and the result registers and nothing else (R125). -/
theorem eval_frame {s t : State} (h : eval s = .next t) :
    t.done = true ∧ t.phase = s.phase ∧ t.mok = s.mok ∧ t.herr = s.herr ∧ t.ovf = s.ovf ∧ t.cnt = s.cnt ∧
      t.sum = s.sum ∧ t.buf = s.buf ∧ t.feed = s.feed := by
  obtain ⟨_, _, ⟨_, rfl⟩ | ⟨_, _, _, _, _, rfl⟩⟩ := eval_reports h
  · exact ⟨rfl, rfl, rfl, rfl, rfl, rfl, rfl, rfl, rfl⟩
  · exact ⟨rfl, rfl, rfl, rfl, rfl, rfl, rfl, rfl, rfl⟩

/-- The evaluation and the end of a line keep the frame (20_memory.md R52). -/
theorem eval_frameBytes {s t : State} (h : eval s = .next t) : t.endLine.frameBytes = s.frameBytes := by
  obtain ⟨-, -, -, -, -, hc, -, hb, -⟩ := eval_frame h
  exact State.frameBytes_congr hc hb

/-- Every error code is at most 5 (10_state.md R20). -/
theorem ParseError.code_le (e : ParseError) : e.code.toNat ≤ 5 := by
  cases e <;> simp [ParseError.code]

/-- No error has the code of an accepted line (R20). -/
theorem State.reportError_status_ne_zero (s : State) (e : ParseError) : (s.reportError e).status ≠ 0 := by
  cases e <;> simp [ParseError.code]

/-- `EVAL` leaves in `STATUS` a code of the table (R29 item 7). -/
theorem eval_status_le {s t : State} (h : eval s = .next t) : t.status.toNat ≤ 5 := by
  obtain ⟨_, _, ⟨x, rfl⟩ | ⟨_, _, _, _, _, rfl⟩⟩ := eval_reports h
  · exact x.code_le
  · exact Nat.zero_le 5

/-- An evaluation that ends in an error leaves every field register 0 (60_exceptions.md R166). -/
theorem eval_error_clears {s t : State} (h : eval s = .next t) (h0 : t.status ≠ 0) :
    t.rtype = 0 ∧ t.len = 0 ∧ t.offset = 0 ∧ t.f0 = 0 ∧ t.f1 = 0 := by
  obtain ⟨_, _, ⟨x, rfl⟩ | ⟨_, _, _, _, _, rfl⟩⟩ := eval_reports h
  · exact ⟨rfl, rfl, rfl, rfl, rfl⟩
  · exact absurd rfl h0

/-- An accepted evaluation passed all seven checks, and its registers are read off the frame (R126 to R134). -/
theorem eval_accepted {s t : State} (h : eval s = .next t) (h0 : t.status = 0) :
    s.mok = true ∧ malformed s = false ∧ s.sum = 0 ∧ s.cnt.toNat = t.len.toNat + 5 ∧ t.ckc = t.cke ∧
      s.readBuf (s.cnt.toNat - 1) = .ok t.cke ∧ s.readBuf 0 = .ok t.len ∧ s.readBuf 3 = .ok t.rtype ∧
      t.rtype.toNat ≤ 5 := by
  rcases eval_next h with ⟨-, rfl⟩ | ⟨-, -, rfl⟩ | ⟨-, -, -, rfl⟩ |
    ⟨e, _, hm, hf, -, he, rfl, ⟨-, rfl⟩ | ⟨-, x, -, rfl⟩ | ⟨hs, l, _, _, tag, _, _, hl, -, -, ht, hc, hk, rfl⟩⟩
  case inr.inr.inr.inr.inr =>
    exact ⟨hm, hf, hs, hc, (computedChecksum_eq_iff e s.sum).mpr hs, he, hl, ht, hk⟩
  all_goals exact absurd h0 (State.reportError_status_ne_zero _ _)

/-- What `EVAL` leaves in `CKC` and `CKE`, by the check it ended at: untouched before `VERIFY`, and from there on the
expected byte and the computed checksum (41_checksum.md R114). -/
theorem eval_checksums {s t : State} (h : eval s = .next t) :
    (t.ckc = s.ckc ∧ t.cke = s.cke ∧ (t.status = 1 ∨ t.status = 2 ∨ t.status = 4)) ∨
    (t.ckc = computedChecksum t.cke s.sum ∧ s.readBuf (s.cnt.toNat - 1) = .ok t.cke ∧
      ((s.sum ≠ 0 ∧ t.status = 3) ∨ (s.sum = 0 ∧ (t.status = 0 ∨ t.status = 4 ∨ t.status = 5)))) := by
  rcases eval_next h with ⟨-, rfl⟩ | ⟨-, -, rfl⟩ | ⟨-, -, -, rfl⟩ |
    ⟨e, _, -, -, -, he, rfl, ⟨hs, rfl⟩ | ⟨hs, _, rfl | rfl, rfl⟩ | ⟨hs, _, _, _, _, _, _, -, -, -, -, -, -, rfl⟩⟩
  · exact .inl ⟨rfl, rfl, .inl rfl⟩
  · exact .inl ⟨rfl, rfl, .inr (.inl rfl)⟩
  · exact .inl ⟨rfl, rfl, .inr (.inr rfl)⟩
  · exact .inr ⟨rfl, he, .inl ⟨hs, rfl⟩⟩
  · exact .inr ⟨rfl, he, .inr ⟨hs, .inr (.inl rfl)⟩⟩
  · exact .inr ⟨rfl, he, .inr ⟨hs, .inr (.inr rfl)⟩⟩
  · exact .inr ⟨rfl, he, .inr ⟨hs, .inl rfl⟩⟩

/-! ### The invariants of R29 -/

/-- Reset meets R29 with any events to come (70_reset_and_hazards.md R190). -/
theorem State.Inv.reset (q : List FeedEvent) : (State.reset.withFeed q).Inv where
  bufWf := rfl
  stored := nofun
  cntLe := Nat.zero_le _
  sumEq := rfl
  ovfFull := nofun
  doneIdle := nofun
  notDone := fun _ => ⟨rfl, rfl, rfl, rfl, rfl, rfl, rfl, rfl⟩
  accepted := nofun
  statusLe := Nat.zero_le 5

/-- The evaluation that ends a line meets R29 again: what it accepts is what item 6 asks for. -/
theorem State.Inv.eval_endLine {s t : State} (h : s.Inv) (he : eval s = .next t) : t.endLine.Inv := by
  obtain ⟨hd, -, -, -, ho, hc, hs, hb, -⟩ := eval_frame he
  refine
    { bufWf := by simpa [hb] using h.bufWf
      stored := by simpa [hb, hc] using h.stored
      cntLe := by simpa [hc] using h.cntLe
      sumEq := by rw [eval_frameBytes he, State.endLine_sum, hs, h.sumEq]
      ovfFull := by simpa [ho, hc] using h.ovfFull
      doneIdle := fun _ => rfl
      notDone := fun hn => by simp [hd] at hn
      accepted := fun _ h0 => ?_
      statusLe := eval_status_le (t := t) he }
  obtain ⟨-, -, hsum, hlen, hck, hlast, hb0, hb3, hk⟩ := eval_accepted he h0
  simp only [State.readBuf_eq_ok] at hlast hb0 hb3
  simp only [State.endLine_cnt, State.endLine_len, State.endLine_sum, State.endLine_ckc, State.endLine_cke,
    State.endLine_buf, State.endLine_rtype, hc, hs, hb]
  exact ⟨hlen, hsum, hck, hlast.2, hb0.2, hb3.2, hk⟩

/-! ### What a report's registers say of one another -/

/-- Without a result there is nothing to report, so nothing to contradict. -/
theorem State.ReportInv.of_noResult {s : State} (hd : s.done = false) (hn : s.noResult) : s.ReportInv := by
  obtain ⟨hs, hc, he, -⟩ := hn
  exact
    { acceptedClean := by simp [hd]
      errorClears := fun h => absurd hs h
      badPair := by simp [hs]
      equalPair := fun _ => by rw [hc, he]
      noPair := by simp [hs] }

/-- `BadChecksum` reports the checksum of the frame before its last byte, and that byte (60_exceptions.md R163). -/
theorem State.Inv.eval_badPair {s t : State} (h : s.Inv) (he : eval s = .next t) (h3 : t.status = 3) :
    t.ckc ≠ t.cke ∧ t.ckc = ck s.frameBytes.dropLast ∧ s.frameBytes.getLast? = some t.cke := by
  obtain ⟨-, -, hx⟩ | ⟨hck, hlast, hx⟩ := eval_checksums he
  · simp [h3] at hx
  · have hsum : s.sum ≠ 0 := by simpa [h3] using hx
    have hl := h.readBuf_last.mp hlast
    refine ⟨?_, by rw [hck, h.sumEq, computedChecksum_eq_ck hl], hl⟩
    rw [hck]
    exact fun heq => hsum ((computedChecksum_eq_iff _ _).mp heq)

/-- An evaluation of a line in progress leaves a sound report. -/
theorem State.Inv.eval_reportInv {s t : State} (h : s.Inv) (hd : s.done = false) (he : eval s = .next t) :
    t.endLine.ReportInv := by
  obtain ⟨-, -, hm, hh, ho, -⟩ := eval_frame he
  obtain ⟨-, hckc, hcke, -⟩ := h.notDone hd
  refine
    { acceptedClean := fun _ h0 => ?_
      errorClears := eval_error_clears (t := t) he
      badPair := fun h3 => by rw [eval_frameBytes he]; exact h.eval_badPair (t := t) he h3
      equalPair := fun h045 => ?_
      noPair := fun h12 => ?_ }
  · obtain ⟨hmok, hmal, -⟩ := eval_accepted he h0
    simp only [malformed, Bool.or_eq_false_iff] at hmal
    exact ⟨hm.trans hmok, hh.trans hmal.1, ho.trans hmal.2⟩
  · simp only [State.endLine_status, State.endLine_ckc, State.endLine_cke] at h045 ⊢
    obtain ⟨h₁, h₂, -⟩ | ⟨hck, -, ⟨-, h3⟩ | ⟨hsum, -⟩⟩ := eval_checksums he
    · rw [h₁, h₂, hckc, hcke]
    · simp [h3] at h045
    · rw [hck]
      exact (computedChecksum_eq_iff _ _).mpr hsum
  · simp only [State.endLine_status, State.endLine_ckc, State.endLine_cke] at h12 ⊢
    obtain ⟨h₁, h₂, -⟩ | ⟨-, -, ⟨-, h3⟩ | ⟨-, h0 | h4 | h5⟩⟩ := eval_checksums he
    · exact ⟨h₁.trans hckc, h₂.trans hcke⟩
    · simp [h3] at h12
    · simp [h0] at h12
    · simp [h4] at h12
    · simp [h5] at h12

/-! ### One step on a beat -/

/-- What the effect of a beat leaves in `PHASE` and the flags: a first beat writes them, a later one only sets them
(10_state.md R11, R13 to R15). -/
theorem beatEffect_flags {x : Bool} {d : Byte} {s t : State} (h : beatEffect x d s = .next t) :
    t.phase = .body ∧
    (s.phase = .idle → t.mok = markerOk d ∧ t.herr = x ∧ t.ovf = false) ∧
    (s.phase = .body → t.mok = s.mok ∧ t.herr = (s.herr || x) ∧
      t.ovf = (s.ovf || (!x && decide (s.cnt.toNat = Config.maxFrame)))) := by
  rcases beatEffect_next h with ⟨hp, rfl⟩ | ⟨hp, rfl, rfl⟩ | ⟨hp, rfl, hc, rfl⟩ | ⟨hp, rfl, hc, rfl⟩
  · exact ⟨rfl, fun _ => ⟨rfl, rfl, rfl⟩, fun hb => by simp [hp] at hb⟩
  · exact ⟨hp, fun hi => by simp [hp] at hi, fun _ => by simp⟩
  · exact ⟨hp, fun hi => by simp [hp] at hi, fun _ => by simp [hc]⟩
  · exact ⟨hp, fun hi => by simp [hp] at hi, fun _ => by simp [Nat.ne_of_lt hc]⟩

/-- A step on a beat leaves the flags as the beat's own effect does, and ends the line if the beat has `last`. -/
theorem step_beat_next {s t : State} {w : BeatWord} {rest : List FeedEvent} (hf : s.feed = .beat w :: rest)
    (h : step s = .next t) :
    ∃ u, beatEffect (beatHexerr w) (beatData w) (s.withFeed rest) = .next u ∧
      t.phase = (if beatLast w = true then .idle else u.phase) ∧ t.mok = u.mok ∧ t.herr = u.herr ∧ t.ovf = u.ovf := by
  rw [step_beat hf] at h
  cases hl : beatLast w with
  | false =>
    simp only [hl, Bool.false_eq_true, if_false] at h
    exact ⟨t, h, by simp⟩
  | true =>
    simp only [hl, if_true] at h
    obtain ⟨u, v, hu, hv, rfl⟩ := execLast_next h
    obtain ⟨-, -, hm, hh, ho, -⟩ := eval_frame hv
    exact ⟨u, hu, by simp, hm, hh, ho⟩

/-! ### The outputs -/

/-- `CKGEN` is 0 less `SUM`, modulo 256 (41_checksum.md R113). -/
theorem State.ckgen_toNat (s : State) : s.ckgen.toNat = (256 - s.sum.toNat) % 256 := by
  simp [State.ckgen]

/-- Under the invariant `CKGEN` is the checksum of the stored bytes (R113). -/
theorem State.Inv.ckgen_eq_ck {s : State} (h : s.Inv) : s.ckgen = ck s.frameBytes := by
  rw [State.ckgen, h.sumEq, ck]

theorem State.err_iff (s : State) : s.err = true ↔ s.done = true ∧ s.status ≠ 0 := by
  simp [State.err]

/-- Inside the window of an accepted record `PAYLOAD[i]` is the cell at `4 + i` (20_memory.md R44). -/
theorem State.payload_of_read {s : State} {i : Nat} {b : Byte} (hd : s.done = true) (h0 : s.status = 0)
    (hi : i < s.len.toNat) (hb : s.buf.read (4 + i) = some b) : s.payload i = b := by
  have hv : s.payloadValid i = true := by simp [State.payloadValid, hd, h0, hi]
  simp [State.payload, hv, Config.hdrBytes, hb]

/-- Every byte of an accepted record's payload window is a stored byte of the frame (20_memory.md R44). -/
theorem State.Inv.payload_eq {s : State} (h : s.Inv) (hd : s.done = true) (h0 : s.status = 0) {i : Nat}
    (hi : i < s.len.toNat) : s.buf.read (4 + i) = some (s.payload i) := by
  obtain ⟨hc, -⟩ := h.accepted hd h0
  obtain ⟨b, hb⟩ := Option.isSome_iff_exists.mp (h.stored (4 + i) (by omega))
  rw [hb, State.payload_of_read hd h0 hi hb]

end Sys2Proof.Machine

open Sys2Proof Sys2Proof.Machine

/-- Settles O1: the reset state is written out register by register. -/
theorem resetLeavesEveryRegisterZero : Obligations.ResetLeavesEveryRegisterZero :=
  ⟨rfl, rfl, rfl, rfl, rfl, rfl, rfl, rfl, rfl, rfl, rfl, rfl, rfl, rfl, rfl, rfl, rfl⟩

/-- Settles O34: reset has an empty frame and no result. -/
theorem resetMeetsTheInvariants : Obligations.ResetMeetsTheInvariants :=
  have h : State.reset.Inv := State.Inv.reset []
  ⟨h, .of_noResult rfl (h.notDone rfl)⟩

/-- Settles O35: a `RESET` starts afresh, a beat's own effect keeps R29, and the evaluation of a last beat does. -/
theorem stepKeepsTheInvariants : Obligations.StepKeepsTheInvariants := by
  unfold Obligations.StepKeepsTheInvariants
  intro s t h hs
  obtain ⟨-, rfl⟩ | ⟨rest, -, rfl⟩ | ⟨w, rest, u, -, hu, hend⟩ := step_next hs
  · exact h
  · exact State.Inv.reset rest
  · obtain ⟨hinv, -⟩ := (h.withFeed rest).beatEffect hu
    obtain ⟨-, rfl⟩ | ⟨-, v, hv, rfl⟩ := hend
    · exact hinv
    · exact hinv.eval_endLine hv

/-- Settles O36: a beat's own effect leaves no result to contradict, and the evaluation of a last beat leaves a sound
one. -/
theorem stepKeepsTheReportSound : Obligations.StepKeepsTheReportSound := by
  unfold Obligations.StepKeepsTheReportSound
  intro s t h hr hs
  obtain ⟨-, rfl⟩ | ⟨rest, -, rfl⟩ | ⟨w, rest, u, -, hu, hend⟩ := step_next hs
  · exact hr
  · exact .of_noResult rfl ((State.Inv.reset rest).notDone rfl)
  · obtain ⟨hinv, hd⟩ := (h.withFeed rest).beatEffect hu
    obtain ⟨-, rfl⟩ | ⟨-, v, hv, rfl⟩ := hend
    · exact .of_noResult hd (hinv.notDone hd)
    · exact hinv.eval_reportInv hd hv

/-- Settles O39: a beat's own effect leaves `BODY`, and `last` ends the line after it. -/
theorem phaseFollowsTheLastFlag : Obligations.PhaseFollowsTheLastFlag := by
  unfold Obligations.PhaseFollowsTheLastFlag
  intro s t w rest hf hs
  obtain ⟨u, hu, hp, -⟩ := step_beat_next hf hs
  rw [hp, (beatEffect_flags hu).1]

/-- Settles O40: the evaluation of a last beat writes no flag, so the flags are those of the beat's own effect. -/
theorem flagsAreStickyWithinALine : Obligations.FlagsAreStickyWithinALine := by
  unfold Obligations.FlagsAreStickyWithinALine
  intro s t w rest hf hs
  obtain ⟨u, hu, -, hm, hh, ho⟩ := step_beat_next hf hs
  obtain ⟨-, first, later⟩ := beatEffect_flags hu
  rw [hm, hh, ho]
  exact ⟨first, later⟩

/-- Settles O44: each output by its own law. -/
theorem outputsFollowTheRegisters : Obligations.OutputsFollowTheRegisters := by
  unfold Obligations.OutputsFollowTheRegisters
  intro s h
  exact ⟨s.ckgen_toNat, h.ckgen_eq_ck, joinWord_toNat s.f0 s.f1, s.err_iff, fun _ hd h0 hi => h.payload_eq hd h0 hi⟩
end

section
/-! Proofs: a line of beats ends with the result those beats determine (10_state.md R28, R30). -/

namespace Sys2Proof.Machine

/-! ### The result of one dispatched record -/

/-- A reported error is the abstract result, the bytes of `BadChecksum` standing in `CKC`, `CKE` (R28). -/
theorem State.result_reportError {s : State} {e : ParseError} (hd : s.done = true)
    (he : ∀ c x, e = .badChecksum c x → s.ckc = c ∧ s.cke = x) : (s.reportError e).result = some (.err e) := by
  cases e with
  | badChecksum c x =>
    obtain ⟨rfl, rfl⟩ := he c x rfl
    simp [State.result, hd, ParseError.code]
  | _ => simp [State.result, hd, ParseError.code]

/-- A known tag with another length than its width is `LengthMismatch` (43_record_dispatch.md R148). -/
theorem dispatch_wrongWidth {h : HeaderWord} (s : State) (hk : (headerTag h).toNat ≤ 5)
    (hw : widthFits (headerTag h) (headerLength h).toNat = false) :
    dispatch h s = .next (s.reportError .lengthMismatch) := by
  rcases known_tag_cases _ hk with e | e | e | e | e | e <;> rw [e] at hw
  · simp [widthFits] at hw
  · rw [dispatch_eof s e]
    exact requireWidth_misfits fun hl => by simp [widthFits, hl] at hw
  · rw [dispatch_esa s e]
    exact requireWidth_misfits fun hl => by simp [widthFits, hl] at hw
  · rw [dispatch_ssa s e]
    exact requireWidth_misfits fun hl => by simp [widthFits, hl] at hw
  · rw [dispatch_ela s e]
    exact requireWidth_misfits fun hl => by simp [widthFits, hl] at hw
  · rw [dispatch_sla s e]
    exact requireWidth_misfits fun hl => by simp [widthFits, hl] at hw

/-- An accepted record's abstract result is read off its registers (R28). -/
theorem State.result_reportRecord {s : State} {tag l : Byte} {o a b : Half} (hd : s.done = true) :
    (s.reportRecord tag l o a b).result = (s.reportRecord tag l o a b).record.map .ok := by
  simp [State.result, hd]

/-- A `DATA` arm reports the payload it was given (R141). -/
theorem State.result_data {s : State} {l : Byte} {o : Half} {p : List Byte} (hd : s.done = true)
    (hl : p.length = l.toNat) (hp : ∀ i b, p[i]? = some b → s.readBuf (4 + i) = .ok b) :
    (s.reportRecord 0x00 l o 0 0).result = some (.ok (.data o p)) := by
  have hmap : (List.range l.toNat).map (s.reportRecord 0x00 l o 0 0).payload = p := by
    apply List.ext_getElem (by simp [hl])
    intro i hi hi'
    rw [List.getElem_map, List.getElem_range]
    obtain ⟨-, hb⟩ := State.readBuf_eq_ok.mp (hp i p[i] (List.getElem?_eq_getElem hi'))
    exact State.payload_of_read hd rfl (by simpa using hi) hb
  rw [State.result_reportRecord hd, State.record, if_pos (State.reportRecord_rtype ..), State.reportRecord_len, hmap]
  rfl

theorem payloadRecord_unknown {tag : Byte} {o : Half} {p : List Byte} (h : 5 < tag.toNat) :
    payloadRecord tag o p = .err .unknownRecordType := if_pos h

theorem payloadRecord_wrongWidth {tag : Byte} {o : Half} {p : List Byte} (hk : tag.toNat ≤ 5)
    (hw : widthFits tag p.length = false) : payloadRecord tag o p = .err .lengthMismatch :=
  (if_neg (Nat.not_lt.mpr hk)).trans (if_pos (by rw [hw]; rfl))

/-- Two bytes that a payload gives are the big-endian half at their address. -/
theorem withHalf_payload {s : State} {i : Nat} {p : List Byte} {b₀ b₁ : Byte} {k : Half → StepOutcome}
    (hp : ∀ j b, p[j]? = some b → s.readBuf (4 + j) = .ok b) (h₀ : p[i]? = some b₀) (h₁ : p[i + 1]? = some b₁) :
    withHalf s (4 + i) k = k (joinHalf b₀ b₁) :=
  withHalf_ok (hp i b₀ h₀) (hp (i + 1) b₁ h₁)

/-- `DISPATCH` of a known tag whose width the payload `p` has reports the record they spell (R141 to R146). -/
theorem dispatch_result_of_fits {h : HeaderWord} {s : State} {p : List Byte} (hd : s.done = true)
    (hl : p.length = (headerLength h).toNat) (hp : ∀ i b, p[i]? = some b → s.readBuf (4 + i) = .ok b)
    (hk : (headerTag h).toNat ≤ 5) (hw : widthFits (headerTag h) (headerLength h).toNat = true) :
    ∃ t, dispatch h s = .next t ∧ t.result = some (payloadRecord (headerTag h) (headerOffset h) p) := by
  have width : ∀ (w : Byte) {n : Nat}, w.toNat = n → ((headerLength h).toNat == n) = true →
      p.length = n ∧ headerLength h = w :=
    fun _ _ hw hn => ⟨hl.trans (eq_of_beq hn), BitVec.eq_of_toNat_eq ((eq_of_beq hn).trans hw.symm)⟩
  rcases known_tag_cases _ hk with e | e | e | e | e | e <;> rw [e] at hw ⊢
  · exact ⟨_, dispatch_data s e, State.result_data hd hl hp⟩
  · obtain ⟨hn, hw⟩ := width 0 rfl hw
    obtain rfl := List.length_eq_zero_iff.mp hn
    rw [dispatch_eof s e, execEof, requireWidth_fits hw]
    exact ⟨_, rfl, State.result_reportRecord hd⟩
  · obtain ⟨hn, hw⟩ := width 2 rfl hw
    obtain ⟨b₄, b₅, rfl⟩ := List.length_eq_two.mp hn
    rw [dispatch_esa s e, execEsa, requireWidth_fits hw, withHalf_payload (i := 0) hp rfl rfl]
    exact ⟨_, rfl, State.result_reportRecord hd⟩
  · obtain ⟨hn, hw⟩ := width 4 rfl hw
    obtain ⟨b₄, b₅, b₆, b₇, rfl⟩ := List.length_eq_four.mp hn
    rw [dispatch_ssa s e, execSsa, requireWidth_fits hw, withHalf_payload (i := 0) hp rfl rfl,
      withHalf_payload (i := 2) hp rfl rfl]
    exact ⟨_, rfl, State.result_reportRecord hd⟩
  · obtain ⟨hn, hw⟩ := width 2 rfl hw
    obtain ⟨b₄, b₅, rfl⟩ := List.length_eq_two.mp hn
    rw [dispatch_ela s e, execEla, requireWidth_fits hw, withHalf_payload (i := 0) hp rfl rfl]
    exact ⟨_, rfl, State.result_reportRecord hd⟩
  · obtain ⟨hn, hw⟩ := width 4 rfl hw
    obtain ⟨b₄, b₅, b₆, b₇, rfl⟩ := List.length_eq_four.mp hn
    rw [dispatch_sla s e, execSla, requireWidth_fits hw, withWord, withHalf_payload (i := 0) hp rfl rfl,
      withHalf_payload (i := 2) hp rfl rfl]
    exact ⟨_, rfl, (State.result_reportRecord hd).trans
      (congrArg (fun a => some (LineResult.ok (.startLinearAddress a))) (joinWord_halves _))⟩

/-- `DISPATCH` of a frame whose payload is `p` reports what tag, offset and `p` spell (R140 to R148). -/
theorem dispatch_result {h : HeaderWord} {s : State} {p : List Byte} (hd : s.done = true)
    (hl : p.length = (headerLength h).toNat) (hp : ∀ i b, p[i]? = some b → s.readBuf (4 + i) = .ok b) :
    ∃ t, dispatch h s = .next t ∧ t.result = some (payloadRecord (headerTag h) (headerOffset h) p) := by
  by_cases hk : 5 < (headerTag h).toNat
  · refine ⟨_, dispatch_unknown s hk, ?_⟩
    rw [State.result_reportError hd (by simp), payloadRecord_unknown hk]
  have hknown := Nat.not_lt.mp hk
  cases hw : widthFits (headerTag h) (headerLength h).toNat with
  | false =>
    refine ⟨_, dispatch_wrongWidth s hknown hw, ?_⟩
    rw [State.result_reportError hd (by simp), payloadRecord_wrongWidth hknown (by rw [hl, hw])]
  | true => exact dispatch_result_of_fits hd hl hp hknown hw

/-! ### The result of an evaluation -/

/-- Checks 6 and 7 report what header and payload spell, the payload being what stands between the header and the
checksum byte (42_framing.md R131 to R133). -/
theorem evalHeader_result {s : State} {l b₁ b₂ tag : Byte} {rest : List Byte} (hd : s.done = true)
    (hc : s.cnt.toNat = rest.length + 4) (hne : rest ≠ [])
    (hr : ∀ i b, (l :: b₁ :: b₂ :: tag :: rest)[i]? = some b → s.readBuf i = .ok b) :
    ∃ t, evalHeader s = .next t ∧ t.result =
      some (if rest.length - 1 ≠ l.toNat then .err .lengthMismatch
        else payloadRecord tag (joinHalf b₁ b₂) rest.dropLast) := by
  have hpos := List.length_pos_iff.mpr hne
  have hsub : s.cnt.toNat - Config.minFrame = rest.length - 1 := by simp only [Config.minFrame]; omega
  rw [evalHeader, withByte_ok (hr 0 l rfl), hsub]
  by_cases hlen : rest.length - 1 = l.toNat
  · rw [if_neg (not_not_intro hlen), if_neg (not_not_intro hlen),
      withWord_ok (hr 0 l rfl) (hr 1 b₁ rfl) (hr 2 b₂ rfl) (hr 3 tag rfl)]
    have hdisp := dispatch_result (h := joinWord (joinHalf l b₁) (joinHalf b₂ tag)) (p := rest.dropLast) hd
      (by rw [headerLength_join, List.length_dropLast, hlen]) fun i b hb => by
        obtain ⟨-, hb⟩ := by simpa [List.getElem?_dropLast] using hb
        exact hr (4 + i) b (by rwa [Nat.add_comm])
    rwa [headerTag_join, headerOffset_join] at hdisp
  · rw [if_pos hlen, if_pos hlen]
    exact ⟨_, rfl, State.result_reportError hd (by simp)⟩

theorem frameResult_badChecksum {f : List Byte} {e : Byte} (he : f.getLast? = some e) (hck : ck f.dropLast ≠ e) :
    frameResult true false f = .err (.badChecksum (ck f.dropLast) e) := by
  simp [frameResult, he, hck]

theorem frameResult_short {f : List Byte} {e : Byte} (he : f.getLast? = some e) (hck : ck f.dropLast = e)
    (hl : f.length < 5) : frameResult true false f = .err .lengthMismatch := by
  simp only [frameResult, he, hck, Bool.not_true, Bool.false_eq_true, if_false, ne_eq, not_true_eq_false]
  match f, hl with
  | [], _ | [_], _ | [_, _], _ | [_, _, _], _ | [_, _, _, _], _ => rfl

theorem frameResult_sound {l b₁ b₂ tag e : Byte} {rest : List Byte}
    (he : (l :: b₁ :: b₂ :: tag :: rest).getLast? = some e) (hck : ck (l :: b₁ :: b₂ :: tag :: rest).dropLast = e)
    (hne : rest ≠ []) :
    frameResult true false (l :: b₁ :: b₂ :: tag :: rest) =
      if rest.length - 1 ≠ l.toNat then .err .lengthMismatch
      else payloadRecord tag (joinHalf b₁ b₂) rest.dropLast := by
  simp only [frameResult, he, hck, hne, Bool.not_true, Bool.false_eq_true, if_false, ne_eq, not_true_eq_false]

/-- A frame of at least five bytes is a header and at least one byte more. -/
theorem exists_header_of_length {f : List Byte} (h : 5 ≤ f.length) :
    ∃ l b₁ b₂ tag rest, rest ≠ [] ∧ f = l :: b₁ :: b₂ :: tag :: rest := by
  match f, h with
  | l :: b₁ :: b₂ :: tag :: x :: rest, _ => exact ⟨l, b₁, b₂, tag, x :: rest, by simp, rfl⟩

/-- From `VERIFY` on, the checks over the registers fail where the checks over the bytes do (42_framing.md R129 to
R133). -/
theorem State.InLine.evalChecksum_result {s : State} {f : List Byte} {e : Byte} (h : s.InLine f)
    (he : f.getLast? = some e) :
    ∃ t, evalChecksum e s.markDone = .next t ∧ t.result = some (frameResult true false f) := by
  have hck : computedChecksum e s.sum = ck f.dropLast := by rw [h.sumEq, computedChecksum_eq_ck he]
  rw [evalChecksum_eq, State.markDone_sum, State.markDone_cnt, ← h.length]
  by_cases hsum : s.sum = 0
  swap
  · have hbad : ck f.dropLast ≠ e := fun hb => hsum ((computedChecksum_eq_iff e _).mp (hck.trans hb))
    rw [if_pos hsum, frameResult_badChecksum he hbad, hck]
    exact ⟨_, rfl, State.result_reportError rfl (by rintro c x ⟨⟩; exact ⟨rfl, rfl⟩)⟩
  have hgood : ck f.dropLast = e := hck.symm.trans ((computedChecksum_eq_iff e _).mpr hsum)
  rw [if_neg (not_not_intro hsum)]
  by_cases h5 : f.length < 5
  · rw [if_pos h5, frameResult_short he hgood h5]
    exact ⟨_, rfl, State.result_reportError rfl (by simp)⟩
  obtain ⟨l, b₁, b₂, tag, rest, hrest, rfl⟩ := exists_header_of_length (Nat.not_lt.mp h5)
  rw [if_neg h5, frameResult_sound he hgood hrest]
  exact evalHeader_result rfl h.length.symm hrest fun i b hb =>
    (State.readBuf_congr rfl rfl i).trans (h.readBuf_eq.mpr hb)

/-- `EVAL` computes the result of the frame (R125, R167). -/
theorem State.InLine.eval_result {s : State} {f : List Byte} (h : s.InLine f) :
    ∃ t, eval s = .next t ∧ t.result = some (frameResult s.mok (malformed s) f) := by
  rw [eval_eq]
  cases s.mok with
  | false => exact ⟨_, rfl, State.result_reportError rfl (by simp)⟩
  | true =>
    cases malformed s with
    | true => exact ⟨_, rfl, State.result_reportError rfl (by simp)⟩
    | false =>
      simp only [Bool.true_eq_false, Bool.false_eq_true, if_false, ← h.length]
      cases he : f.getLast? with
      | none =>
        obtain rfl := List.getLast?_eq_none_iff.mp he
        exact ⟨_, rfl, State.result_reportError rfl (by simp)⟩
      | some e =>
        have hne : f.length ≠ 0 := by
          intro h0
          simp [List.length_eq_zero_iff.mp h0] at he
        have hlast : s.readBuf (f.length - 1) = .ok e := by
          rw [h.readBuf_eq, ← List.getLast?_eq_getElem?, he]
        rw [if_neg hne, withByte_ok hlast]
        exact h.evalChecksum_result he

/-- An accepted evaluation's payload window lies in the stored frame, any other has none (20_memory.md R44). -/
theorem State.InLine.eval_window {s t : State} {f : List Byte} (h : s.InLine f) (he : eval s = .next t) :
    ∀ i, i < t.len.toNat → (t.buf.read (4 + i)).isSome = true := by
  obtain ⟨-, -, -, -, -, -, -, hb, -⟩ := eval_frame he
  intro i hi
  by_cases h0 : t.status = 0
  · obtain ⟨-, -, -, hc, -⟩ := eval_accepted he h0
    rw [hb]
    exact h.stored _ (by omega)
  · obtain ⟨-, hl, -⟩ := eval_error_clears he h0
    simp [hl] at hi

/-- A frame that was cut at 260 bytes is malformed, so what was cut does not matter (40_beat_ingest.md R94). -/
theorem frameResult_take (m x : Bool) (f : List Byte) :
    frameResult m (x || decide (260 < f.length)) (f.take 260) = frameResult m (x || decide (260 < f.length)) f := by
  by_cases hl : 260 < f.length
  · cases m <;> simp [hl, frameResult]
  · rw [List.take_of_length_le (by omega)]

/-- A line's run ends with the evaluation of its stored bytes. -/
theorem runLine_result {s : State} {w : BeatWord} {ws : List BeatWord} (hp : s.phase = .idle)
    (hl : isLine (w :: ws) = true) :
    ∃ t, runLine s (w :: ws) = .next t ∧ t.phase = .idle ∧ t.done = true ∧ t.result = some (lineResult (w :: ws)) := by
  obtain ⟨u, hrun, hin, hm, hh, ho, -⟩ := runLine_eval hp hl
  obtain ⟨t, ht, hres⟩ := hin.eval_result
  refine ⟨t.endLine, by rw [hrun, ht, andThen_next], rfl, (eval_frame ht).1, ?_⟩
  rw [State.result_endLine (hin.eval_window ht), hres, malformed, hm, hh, ho, frameResult_take]
  rfl

/-! ### What an evaluation does not read -/

/-- The registers of `s` with the phase, the buffer and the feed of `u`. -/
def State.withContext (s u : State) : State := { s with phase := u.phase, buf := u.buf, feed := u.feed }

/-- Both buffers hold the same stored bytes. -/
def State.SameStored (s u : State) : Prop := ∀ i, i < s.cnt.toNat → u.buf.read i = s.buf.read i

theorem andThen_ite (c : Prop) [Decidable c] (a b : StepOutcome) (k : State → StepOutcome) :
    andThen (if c then a else b) k = if c then andThen a k else andThen b k :=
  apply_ite (andThen · k) c a b

theorem andThen_withByte (s : State) (i : Nat) (k : Byte → StepOutcome) (g : State → StepOutcome) :
    andThen (withByte s i k) g = withByte s i fun b => andThen (k b) g := by
  unfold withByte
  cases s.readBuf i <;> rfl

theorem State.SameStored.readBuf {s u : State} (h : s.SameStored u) (i : Nat) :
    (s.withContext u).readBuf i = s.readBuf i := by
  unfold State.readBuf
  by_cases hi : i < s.cnt.toNat
  · simp [State.withContext, hi, h i hi]
  · simp [State.withContext, hi]

theorem State.SameStored.withByte {s u : State} (h : s.SameStored u) (i : Nat) (k : Byte → StepOutcome) :
    withByte (s.withContext u) i k = Machine.withByte s i k := by
  rw [Machine.withByte, h.readBuf, Machine.withByte]

@[simp] theorem State.withContext_cnt (s u : State) : (s.withContext u).cnt = s.cnt := rfl
@[simp] theorem State.withContext_sum (s u : State) : (s.withContext u).sum = s.sum := rfl
@[simp] theorem State.withContext_mok (s u : State) : (s.withContext u).mok = s.mok := rfl

theorem malformed_withContext (s u : State) : malformed (s.withContext u) = malformed s := rfl

theorem State.markDone_withContext (s u : State) : (s.withContext u).markDone = s.markDone.withContext u := rfl

theorem State.recordChecksums_withContext (c e : Byte) (s u : State) :
    (s.withContext u).recordChecksums c e = (s.recordChecksums c e).withContext u := rfl

theorem State.reportRecord_withContext (tag l : Byte) (o a b : Half) (s u : State) :
    (s.withContext u).reportRecord tag l o a b = (s.reportRecord tag l o a b).withContext u := rfl

theorem raise_withContext (e : ParseError) (s u : State) :
    raise e (s.withContext u) = andThen (raise e s) fun t => .next (t.withContext u) := rfl

theorem State.SameStored.dispatch {s u : State} (h : s.SameStored u) (w : HeaderWord) :
    dispatch w (s.withContext u) = andThen (Machine.dispatch w s) fun t => .next (t.withContext u) := by
  simp only [Machine.dispatch, execData, execEof, execEsa, execSsa, execEla, execSla, execUnknown06, execUnknown08,
    execUnknown10, execUnknown20, execUnknown40, execUnknown80, requireWidth, withHalf, withWord, h.withByte,
    andThen_ite, andThen_withByte, andThen_next, raise_withContext, State.reportRecord_withContext]

theorem State.SameStored.evalHeader {s u : State} (h : s.SameStored u) :
    evalHeader (s.withContext u) = andThen (Machine.evalHeader s) fun t => .next (t.withContext u) := by
  simp only [Machine.evalHeader, withHalf, withWord, h.withByte, h.dispatch, andThen_ite, andThen_withByte,
    raise_withContext]
  rfl

theorem State.SameStored.evalFrame {s u : State} (h : s.SameStored u) :
    evalFrame (s.withContext u) = andThen (Machine.evalFrame s) fun t => .next (t.withContext u) := by
  simp only [Machine.evalFrame, h.evalHeader, andThen_ite, raise_withContext, State.withContext_cnt]

theorem State.SameStored.evalChecksum {s u : State} (h : s.SameStored u) (e : Byte) :
    evalChecksum e (s.withContext u) = andThen (Machine.evalChecksum e s) fun t => .next (t.withContext u) := by
  have hframe := State.SameStored.evalFrame (s := s.recordChecksums (computedChecksum e s.sum) e) h
  simp only [Machine.evalChecksum, State.withContext_sum, State.recordChecksums_withContext, hframe, andThen_ite,
    raise_withContext]

/-- `EVAL` reads the stored bytes and the registers of the line, and carries everything else along. -/
theorem State.SameStored.eval {s u : State} (h : s.SameStored u) :
    eval (s.withContext u) = andThen (Machine.eval s) fun t => .next (t.withContext u) := by
  have hbyte := State.SameStored.withByte (s := s.markDone) h
  have hcheck := State.SameStored.evalChecksum (s := s.markDone) h
  simp only [Machine.eval, State.markDone_withContext, malformed_withContext, State.withContext_mok,
    State.withContext_cnt, hbyte, hcheck, andThen_ite, andThen_withByte, raise_withContext]

/-- Two states in the same place of the same line differ in phase, buffer and feed alone. -/
theorem State.InLine.eq_withContext {s u : State} {f : List Byte} (hs : s.InLine f) (hu : u.InLine f)
    (hm : u.mok = s.mok) (hh : u.herr = s.herr) (ho : u.ovf = s.ovf) : u = s.withContext u := by
  have hcnt : u.cnt = s.cnt := BitVec.eq_of_toNat_eq (hu.length.symm.trans hs.length)
  have hsum : u.sum = s.sum := hu.sumEq.trans hs.sumEq.symm
  have hdone : u.done = s.done := hu.noDone.trans hs.noDone.symm
  have hres := hs.noRes
  have hres' := hu.noRes
  unfold State.noResult at hres hres'
  unfold State.withContext
  cases s
  cases u
  simp_all

/-- Two states in the same place of the same line hold the same stored bytes. -/
theorem State.InLine.sameStored {s u : State} {f : List Byte} (hs : s.InLine f) (hu : u.InLine f) :
    s.SameStored u := by
  intro i hi
  have hi' : i < u.cnt.toNat := by rwa [← hu.length, hs.length]
  rw [← State.frameBytes_getElem? hu.stored hi', ← State.frameBytes_getElem? hs.stored hi, hu.frame, hs.frame]

/-- Lines alike give the same report and the same frame, whatever came before them. -/
theorem runLine_noninterference {s₁ s₂ : State} {w : BeatWord} {ws : List BeatWord} (h₁ : s₁.phase = .idle)
    (h₂ : s₂.phase = .idle) (hl : isLine (w :: ws) = true) :
    ∃ t₁ t₂, runLine s₁ (w :: ws) = .next t₁ ∧ runLine s₂ (w :: ws) = .next t₂ ∧ t₁.report = t₂.report ∧
      t₁.frameBytes = t₂.frameBytes := by
  obtain ⟨u₁, hrun₁, hin₁, hm₁, hh₁, ho₁, -⟩ := runLine_eval h₁ hl
  obtain ⟨u₂, hrun₂, hin₂, hm₂, hh₂, ho₂, -⟩ := runLine_eval h₂ hl
  obtain ⟨t, ht, -⟩ := hin₁.eval_result
  have hu₂ : u₂ = u₁.withContext u₂ :=
    hin₁.eq_withContext hin₂ (hm₂.trans hm₁.symm) (hh₂.trans hh₁.symm) (ho₂.trans ho₁.symm)
  have ht₂ : eval u₂ = .next (t.withContext u₂) := by
    rw [hu₂, (hin₁.sameStored hin₂).eval, ht, andThen_next, ← hu₂]
  refine ⟨t.endLine, (t.withContext u₂).endLine, ?_, ?_, rfl, ?_⟩
  · rw [hrun₁, ht, andThen_next]
  · rw [hrun₂, ht₂, andThen_next]
  · rw [eval_frameBytes ht, eval_frameBytes ht₂, hin₁.frame, hin₂.frame]

end Sys2Proof.Machine

open Sys2Proof Sys2Proof.Machine

/-- Settles O45: the run of a line is the evaluation of its bytes, and that computes `lineResult`. -/
theorem lineEndsWithItsResult : Obligations.LineEndsWithItsResult := by
  unfold Obligations.LineEndsWithItsResult
  intro s ws hp hl
  cases ws with
  | nil => simp [isLine] at hl
  | cons w ws => exact runLine_result hp hl

/-- Settles O46: before its evaluation a line has left the two states alike in all that `EVAL` reads. -/
theorem linesDoNotInfluenceEachOther : Obligations.LinesDoNotInfluenceEachOther := by
  unfold Obligations.LinesDoNotInfluenceEachOther
  intro s₁ s₂ ws h₁ h₂ hl
  cases ws with
  | nil => simp [isLine] at hl
  | cons w ws => exact runLine_noninterference h₁ h₂ hl
end

section
/-! Proofs: what one step does to the frame buffer, to `CNT` and to the report (20_memory.md R40 to R43, R52). -/

namespace Sys2Proof.Machine

/-! ### The effect of a beat -/

/-- The effect of a beat writes the frame buffer only when it stores a byte, and then at `CNT` (R43). -/
theorem beatEffect_buf {x : Bool} {d : Byte} {s t : State} (h : beatEffect x d s = .next t) :
    t.buf = if s.phase = .body ∧ x = false ∧ s.cnt.toNat < Config.maxFrame then s.buf.write s.cnt.toNat d
      else s.buf := by
  rcases beatEffect_next h with ⟨hp, rfl⟩ | ⟨-, hx, rfl⟩ | ⟨-, -, hc, rfl⟩ | ⟨hp, hx, hc, rfl⟩
  · simp [hp]
  · simp [hx]
  · simp [hc]
  · exact (if_pos ⟨hp, hx, hc⟩).symm

/-- A first beat empties the frame, a stored byte extends it by one, and no other beat changes `CNT` (R43). -/
theorem beatEffect_cnt {x : Bool} {d : Byte} {s t : State} (h : beatEffect x d s = .next t) :
    t.cnt.toNat =
      if s.phase = .idle then 0
      else if x = false ∧ s.cnt.toNat < Config.maxFrame then s.cnt.toNat + 1
      else s.cnt.toNat := by
  rcases beatEffect_next h with ⟨hp, rfl⟩ | ⟨hp, hx, rfl⟩ | ⟨hp, -, hc, rfl⟩ | ⟨hp, hx, hc, rfl⟩
  · simp [hp]
  · simp [hp, hx]
  · simp [hp, hc]
  · simp [hp, hx, hc, State.appendByte_cnt_toNat d hc, -State.appendByte_cnt]

/-- The effect of a beat keeps the buffer canonical: the address of its one write lies in the frame space (R40). -/
theorem beatEffect_buf_wf {x : Bool} {d : Byte} {s t : State} (hw : s.buf.wf = true)
    (h : beatEffect x d s = .next t) : t.buf.wf = true := by
  rw [beatEffect_buf h]
  split
  · next hstore =>
    obtain ⟨-, -, hc⟩ := hstore
    exact Memory.wf_write _ _ _ hc hw
  · exact hw

/-- The effect of a body beat writes no result register (R52). -/
theorem beatEffect_body_report {x : Bool} {d : Byte} {s t : State} (hp : s.phase = .body)
    (h : beatEffect x d s = .next t) : t.report = s.report := by
  rcases beatEffect_next h with ⟨hi, -⟩ | ⟨-, -, rfl⟩ | ⟨-, -, -, rfl⟩ | ⟨-, -, -, rfl⟩
  · simp [hp] at hi
  · rfl
  · rfl
  · rfl

/-! ### One step -/

/-- A step on a beat leaves the frame as the beat's own effect does: the evaluation of a last beat writes neither
`BUF` nor `CNT`. -/
theorem step_beat_frame {s t : State} {w : BeatWord} {rest : List FeedEvent} (hf : s.feed = .beat w :: rest)
    (h : step s = .next t) :
    ∃ u, beatEffect (beatHexerr w) (beatData w) (s.withFeed rest) = .next u ∧ t.buf = u.buf ∧ t.cnt = u.cnt := by
  rw [step_beat hf] at h
  split at h
  · obtain ⟨u, v, hu, hv, rfl⟩ := execLast_next h
    obtain ⟨-, -, -, -, -, hc, -, hb, -⟩ := eval_frame hv
    exact ⟨u, hu, hb, hc⟩
  · exact ⟨t, h, rfl, rfl⟩

end Sys2Proof.Machine

open Sys2Proof Sys2Proof.Machine

/-- Settles O37: a `RESET` empties the buffer, and a beat makes at most the one write of its own effect. -/
theorem stepKeepsTheFrameCanonical : Obligations.StepKeepsTheFrameCanonical := by
  unfold Obligations.StepKeepsTheFrameCanonical
  intro s t hw hs
  obtain ⟨-, rfl⟩ | ⟨rest, -, rfl⟩ | ⟨w, rest, -, hf, -⟩ := step_next hs
  · exact hw
  · rfl
  · obtain ⟨u, hu, hb, -⟩ := step_beat_frame hf hs
    rw [hb]
    exact beatEffect_buf_wf (s := s.withFeed rest) hw hu

/-- Settles O41: after a step on a beat `BUF` and `CNT` are those of the beat's own effect, read cell by cell. -/
theorem beatWritesOnlyTheCellAtCnt : Obligations.BeatWritesOnlyTheCellAtCnt := by
  unfold Obligations.BeatWritesOnlyTheCellAtCnt
  intro s t w rest hf hs
  obtain ⟨u, hu, hb, hc⟩ := step_beat_frame hf hs
  refine ⟨fun a => ?_, by rw [hc]; exact beatEffect_cnt (s := s.withFeed rest) hu⟩
  have hbuf : t.buf = if s.phase = .body ∧ beatHexerr w = false ∧ s.cnt.toNat < 260
      then s.buf.write s.cnt.toNat (beatData w) else s.buf := hb.trans (beatEffect_buf (s := s.withFeed rest) hu)
  by_cases hstore : s.phase = .body ∧ beatHexerr w = false ∧ s.cnt.toNat < 260
  · simp [hbuf, hstore, Memory.read_write]
  · rw [hbuf, if_neg hstore, if_neg fun ⟨hp, hx, hlt, _⟩ => hstore ⟨hp, hx, hlt⟩]

/-- Settles O42: without `last` the step is the beat's own effect, which in a body writes no result register. -/
theorem bodyBeatKeepsTheReport : Obligations.BodyBeatKeepsTheReport := by
  unfold Obligations.BodyBeatKeepsTheReport
  intro s t w rest hf hp hl hs
  rw [step_beat hf, if_neg (by simp [hl])] at hs
  exact beatEffect_body_report (s := s.withFeed rest) hp hs

/-- Settles O43: a defined read lies below `CNT`, and under the invariant every cell there is stored. -/
theorem readsAreDefinedBelowCnt : Obligations.ReadsAreDefinedBelowCnt := by
  unfold Obligations.ReadsAreDefinedBelowCnt
  intro s i h
  exact ⟨fun ⟨_, hb⟩ => (State.readBuf_eq_ok.mp hb).1, h.readBuf_defined⟩
end

section
/-! Proofs: a canonical frame is decoded to its record, and a canonical line spells that frame (30_encoding.md R63, R65,
R80 to R84). -/

namespace Sys2Proof.Machine

/-! ### The beats of a frame -/

@[simp] theorem beatData_withLast (w : BeatWord) : beatData (withLast w) = beatData w := beatData_beatWord _ _ _

@[simp] theorem beatHexerr_withLast (w : BeatWord) : beatHexerr (withLast w) = beatHexerr w := beatHexerr_beatWord _ _ _

@[simp] theorem beatLast_withLast (w : BeatWord) : beatLast (withLast w) = true := beatLast_beatWord _ _ _

/-- Setting `last` on the final of some beats without it makes them one line (R63 item 4). -/
theorem isLine_markFinal {ws : List BeatWord} (hne : ws ≠ []) (hl : ∀ w ∈ ws, beatLast w = false) :
    isLine (markFinal ws) = true := by
  induction ws with
  | nil => exact absurd rfl hne
  | cons w ws ih =>
    cases ws with
    | nil => exact beatLast_withLast w
    | cons v vs =>
      have hrest := ih (by simp) fun w' hw' => hl w' (List.mem_cons_of_mem w hw')
      exact (isLine_cons w _).mpr (.inr ⟨hl w List.mem_cons_self, hrest⟩)

theorem isLine_frameWords (frame : List Byte) : isLine (frameWords frame) = true :=
  isLine_markFinal (by simp) (by simp)

/-- Setting `last` changes nothing else of a beat. -/
theorem map_markFinal {α : Type} {f : BeatWord → α} (hf : ∀ w, f (withLast w) = f w) (ws : List BeatWord) :
    (markFinal ws).map f = ws.map f := by
  induction ws with
  | nil => rfl
  | cons w ws ih =>
    cases ws with
    | nil => exact congrArg (fun x => [x]) (hf w)
    | cons v vs => exact congrArg (f w :: ·) ih

theorem any_beatHexerr_markFinal (ws : List BeatWord) : (markFinal ws).any beatHexerr = ws.any beatHexerr := by
  simpa using congrArg (·.any id) (map_markFinal beatHexerr_withLast ws)

theorem bodyBytes_eq_flatten (ws : List BeatWord) :
    bodyBytes ws = (ws.map fun w => if beatHexerr w then [] else [beatData w]).flatten := by
  induction ws with
  | nil => rfl
  | cons w ws ih => rw [bodyBytes_cons, ih, List.map_cons, List.flatten_cons]

theorem bodyBytes_markFinal (ws : List BeatWord) : bodyBytes (markFinal ws) = bodyBytes ws := by
  rw [bodyBytes_eq_flatten, map_markFinal (by simp), ← bodyBytes_eq_flatten]

/-- The result of a line does not depend on where its `last` stands. -/
theorem lineResult_markFinal (ws : List BeatWord) : lineResult (markFinal ws) = lineResult ws := by
  match ws with
  | [] => rfl
  | [w] => simp [markFinal, lineResult]
  | w :: v :: vs =>
    rw [markFinal, lineResult, lineResult, List.any_cons, any_beatHexerr_markFinal, bodyBytes_markFinal, ← List.any_cons]
    simp

/-- The beats of bytes deliver those bytes. -/
theorem bodyBytes_map_beatWord (frame : List Byte) : bodyBytes (frame.map (beatWord false false)) = frame := by
  simp [bodyBytes, List.filter_map, Function.comp_def]

/-- The beats of a frame are a marked line of its bytes, malformed only by their number. -/
theorem lineResult_frameWords (frame : List Byte) :
    lineResult (frameWords frame) = frameResult true (decide (Config.maxFrame < frame.length)) frame := by
  have hx : (beatWord false false Config.marker :: frame.map (beatWord false false)).any beatHexerr = false := by simp
  rw [frameWords, lineResult_markFinal, lineResult, hx, bodyBytes_map_beatWord, beatData_beatWord]
  rfl

/-! ### The canonical frame -/

/-- The payload of a constructible record has at most 255 bytes (R81). -/
theorem Record.payloadBytes_length_le {r : Record} (h : r.constructible = true) : r.payloadBytes.length ≤ 255 := by
  cases r with
  | data o p => exact of_decide_eq_true h
  | _ => simp [Record.payloadBytes]

theorem Record.canonicalFrame_length (r : Record) : r.canonicalFrame.length = r.payloadBytes.length + 5 := by
  simp [Record.canonicalFrame, Record.headerAndPayload]

/-- The dispatch on tag, offset and payload of a record gives the record back (R81, R141 to R146). -/
theorem Record.payloadRecord_eq (r : Record) :
    payloadRecord r.tag r.offsetField r.payloadBytes = .ok r := by
  cases r <;> simp [payloadRecord, Record.tag, Record.offsetField, Record.payloadBytes, widthFits]

/-- The ordered checks accept a canonical frame as its record (R84). -/
theorem Record.frameResult_canonicalFrame {r : Record} (h : r.constructible = true) :
    frameResult true false r.canonicalFrame = .ok r := by
  have hlen : (BitVec.ofNat 8 r.payloadBytes.length).toNat = r.payloadBytes.length :=
    Nat.mod_eq_of_lt (by have := r.payloadBytes_length_le h; omega)
  have hlast : r.canonicalFrame.getLast? = some (ck r.headerAndPayload) := List.getLast?_concat ..
  have hck : ck r.canonicalFrame.dropLast = ck r.headerAndPayload := by simp [Record.canonicalFrame]
  simp only [Record.canonicalFrame, Record.headerAndPayload, List.cons_append] at hlast hck ⊢
  rw [frameResult_sound hlast hck (by simp), if_neg (by simp [hlen]), joinHalf_halves, List.dropLast_concat,
    r.payloadRecord_eq]

/-- The record of the registers is of the type in `RTYPE` (10_state.md R28). -/
theorem State.rtype_of_record {t : State} {r : Record} (h : t.record = some r) : t.rtype = r.tag := by
  revert h
  unfold State.record
  split_ifs
  case neg => nofun
  all_goals rintro ⟨⟩; assumption

/-- A result that is a record has `STATUS` 0 and the record's tag in `RTYPE` (R28, 42_framing.md R134). -/
theorem State.status_rtype_of_result_ok {t : State} {r : Record} (h : t.result = some (.ok r)) :
    t.status = 0 ∧ t.rtype = r.tag := by
  unfold State.result at h
  split at h
  case isFalse => simp at h
  split at h
  case isFalse => revert h; split_ifs <;> simp
  case isTrue h0 =>
    obtain ⟨r', hr, hok⟩ := Option.map_eq_some_iff.mp h
    obtain rfl := LineResult.ok.inj hok
    exact ⟨h0, State.rtype_of_record hr⟩

/-! ### Text lines -/

/-- A digit of the canonical text is read as its nibble (R63, R83). -/
theorem hexDigit_hexChar : ∀ n : BitVec 4, hexDigit (hexChar n) = some n := by decide

/-- A byte is its two nibbles, the high one first (20_memory.md R46). -/
theorem append_nibbles (b : Byte) : b.extractLsb' 4 4 ++ b.extractLsb' 0 4 = b := by
  revert b
  decide

/-- The hex digits of some bytes give the beats of those bytes (R65). -/
theorem bodyWords_flatMap_hexPair (bs : List Byte) :
    bodyWords (bs.flatMap hexPair) = bs.map (beatWord false false) := by
  induction bs with
  | nil => rfl
  | cons b bs ih =>
    rw [List.flatMap_cons, hexPair, List.cons_append, List.cons_append, List.nil_append, bodyWords, hexDigit_hexChar,
      hexDigit_hexChar, ih, List.map_cons]
    exact congrArg (beatWord false false · :: _) (append_nibbles b)

/-- A hex digit has one value in both cases (R63 item 5). -/
theorem hexDigit_upperCase : ∀ c : Byte, hexDigit (upperCase c) = hexDigit c := by decide

theorem bodyWords_map_upperCase (body : List Byte) : bodyWords (body.map upperCase) = bodyWords body := by
  match body with
  | [] => rfl
  | [_] => rfl
  | c₁ :: c₂ :: rest =>
    simp only [List.map_cons, bodyWords, hexDigit_upperCase, bodyWords_map_upperCase rest]

end Sys2Proof.Machine

open Sys2Proof Sys2Proof.Machine

/-- Settles O49: the line ends with the result of its bytes, and the ordered checks accept a canonical frame as its
record. -/
theorem canonicalFrameRoundTrips : Obligations.CanonicalFrameRoundTrips := by
  unfold Obligations.CanonicalFrameRoundTrips
  intro s r hp hc
  have hroom : decide (Config.maxFrame < r.canonicalFrame.length) = false := by
    have := r.payloadBytes_length_le hc
    simp only [r.canonicalFrame_length, Config.maxFrame, decide_eq_false_iff_not]
    omega
  have hline : lineResult (frameWords r.canonicalFrame) = .ok r := by
    rw [lineResult_frameWords, hroom, r.frameResult_canonicalFrame hc]
  obtain ⟨t, hrun, -, hd, hres⟩ := lineEndsWithItsResult s _ hp (isLine_frameWords r.canonicalFrame)
  rw [hline] at hres
  obtain ⟨hs, ht⟩ := State.status_rtype_of_result_ok hres
  exact ⟨t, hrun, hd, hs, ht, hres⟩

/-- Settles O50: the digits of the frame's bytes are read pair by pair as those bytes. -/
theorem canonicalLineSpellsTheFrame : Obligations.CanonicalLineSpellsTheFrame := by
  unfold Obligations.CanonicalLineSpellsTheFrame
  intro r
  rw [Record.canonicalLine, lineWords, bodyWords_flatMap_hexPair, frameWords]

/-- Settles O51: each hex digit has one value in both cases, and no other character changes. -/
theorem letterCaseMakesNoDifference : Obligations.LetterCaseMakesNoDifference := by
  unfold Obligations.LetterCaseMakesNoDifference
  intro c body
  rw [lineWords, lineWords, bodyWords_map_upperCase]
end

section
/-! Proofs: decoding and encoding are inverse to each other, row by row (30_encoding.md R60, R61, R69, R70). -/

namespace Sys2Proof

/-! ### The row of a header word -/

theorem tag_and_FE_iff : ∀ t : Byte, 0x05 < t.toNat → (t &&& 0xFE = 0x06 ↔ t.toNat ≤ 0x07) := by decide
theorem tag_and_F8_iff : ∀ t : Byte, 0x07 < t.toNat → (t &&& 0xF8 = 0x08 ↔ t.toNat ≤ 0x0F) := by decide
theorem tag_and_F0_iff : ∀ t : Byte, 0x0F < t.toNat → (t &&& 0xF0 = 0x10 ↔ t.toNat ≤ 0x1F) := by decide
theorem tag_and_E0_iff : ∀ t : Byte, 0x1F < t.toNat → (t &&& 0xE0 = 0x20 ↔ t.toNat ≤ 0x3F) := by decide
theorem tag_and_C0_iff : ∀ t : Byte, 0x3F < t.toNat → (t &&& 0xC0 = 0x40 ↔ t.toNat ≤ 0x7F) := by decide

theorem tag_ne_known :
    ∀ t : Byte, 5 < t.toNat → t ≠ 0x00 ∧ t ≠ 0x01 ∧ t ≠ 0x02 ∧ t ≠ 0x03 ∧ t ≠ 0x04 ∧ t ≠ 0x05 := by decide

/-- The row of an unknown tag by the ranges of R69: past the rows before it, each row's mask and match leave just the
tags up to the end of its range. -/
theorem decodeHeader_unknown {h : HeaderWord} (hu : 5 < (headerTag h).toNat) :
    decodeHeader h =
      if (headerTag h).toNat ≤ 0x07 then .unknown06 (headerLength h) (headerOffset h) (headerTag h)
      else if (headerTag h).toNat ≤ 0x0F then .unknown08 (headerLength h) (headerOffset h) (headerTag h)
      else if (headerTag h).toNat ≤ 0x1F then .unknown10 (headerLength h) (headerOffset h) (headerTag h)
      else if (headerTag h).toNat ≤ 0x3F then .unknown20 (headerLength h) (headerOffset h) (headerTag h)
      else if (headerTag h).toNat ≤ 0x7F then .unknown40 (headerLength h) (headerOffset h) (headerTag h)
      else .unknown80 (headerLength h) (headerOffset h) (headerTag h) := by
  obtain ⟨h0, h1, h2, h3, h4, h5⟩ := tag_ne_known _ hu
  simp only [decodeHeader, if_neg h0, if_neg h1, if_neg h2, if_neg h3, if_neg h4, if_neg h5]
  refine ite_congr (propext (tag_and_FE_iff _ hu)) (fun _ => rfl) fun h07 => ?_
  refine ite_congr (propext (tag_and_F8_iff _ (Nat.lt_of_not_le h07))) (fun _ => rfl) fun h0F => ?_
  refine ite_congr (propext (tag_and_F0_iff _ (Nat.lt_of_not_le h0F))) (fun _ => rfl) fun h1F => ?_
  refine ite_congr (propext (tag_and_E0_iff _ (Nat.lt_of_not_le h1F))) (fun _ => rfl) fun h3F => ?_
  exact ite_congr (propext (tag_and_C0_iff _ (Nat.lt_of_not_le h3F))) (fun _ => rfl) fun _ => rfl

/-! ### Encoding what was decoded -/

theorem encode_decodeBeat (c : BeatContext) (w : BeatWord) :
    (decodeBeat c w).wellFormed = true ∧ (decodeBeat c w).admits c = true ∧ (decodeBeat c w).bits = 10 ∧
      encode (decodeBeat c w) = w.toNat := by
  rw [← beatWord_fields w, decodeBeat_beatWord]
  cases beatLast w with
  | true => exact ⟨rfl, rfl, rfl, rfl⟩
  | false => cases c <;> cases beatHexerr w <;> exact ⟨rfl, rfl, rfl, rfl⟩

theorem encode_decodeHeader (h : HeaderWord) :
    (decodeHeader h).wellFormed = true ∧ (decodeHeader h).bits = 32 ∧ encode (decodeHeader h) = h.toNat := by
  by_cases hu : 5 < (headerTag h).toNat
  · rw [decodeHeader_unknown hu]
    split_ifs <;>
      simp only [Instr.wellFormed, Instr.bits, encode, headerWord_fields, Bool.and_eq_true, decide_eq_true_eq,
        and_true] <;>
      omega
  · obtain ⟨l, o, t, rfl⟩ : ∃ l o t, headerWord l o t = h := ⟨_, _, _, headerWord_fields h⟩
    rw [headerTag_headerWord, Nat.not_lt] at hu
    rcases Machine.known_tag_cases t hu with rfl | rfl | rfl | rfl | rfl | rfl <;>
      simp [decodeHeader, Instr.wellFormed, Instr.bits, encode]

/-! ### Decoding what was encoded -/

theorem decode_encode_beat {i : Instr} {c : BeatContext} (hb : i.bits = 10) (ha : i.admits c = true) :
    decode c 10 (encode i) = .instr i := by
  cases i with
  | mark | byte | byteOverflow =>
    obtain rfl := eq_of_beq ha
    rw [encode, decode_beat, decodeBeat_beatWord]
    rfl
  | hexerr d =>
    obtain rfl | rfl : c = .bodyRoom ∨ c = .bodyFull := by simpa [Instr.admits] using ha
    all_goals rw [encode, decode_beat, decodeBeat_beatWord]; rfl
  | last h d =>
    rw [encode, decode_beat, decodeBeat_beatWord]
    rfl
  | _ => simp [Instr.bits] at hb

theorem decode_encode_header {i : Instr} (c : BeatContext) (hb : i.bits = 32) (hw : i.wellFormed = true) :
    decode c 32 (encode i) = .instr i := by
  cases i with
  | mark | byte | byteOverflow | hexerr | last => simp [Instr.bits] at hb
  | unknown06 l o t | unknown08 l o t | unknown10 l o t | unknown20 l o t | unknown40 l o t | unknown80 l o t =>
    simp only [Instr.wellFormed, Bool.and_eq_true, decide_eq_true_eq] at hw
    rw [encode, decode_header, decodeHeader_unknown (by rw [headerTag_headerWord]; omega)]
    simp (disch := omega) only [headerTag_headerWord, headerLength_headerWord, headerOffset_headerWord, if_pos, if_neg]
  | _ => rw [encode, decode_header]; simp [decodeHeader]

theorem Instr.bits_eq (i : Instr) : i.bits = 10 ∨ i.bits = 32 := by
  cases i <;> simp [Instr.bits]

end Sys2Proof

open Sys2Proof Sys2Proof.Machine

/-- Settles O52: a beat row is read back from the three fields of its word in its context, a record row from the tag of
its header. -/
theorem decodeOfEncodeIsTheInstruction : Obligations.DecodeOfEncodeIsTheInstruction := by
  unfold Obligations.DecodeOfEncodeIsTheInstruction
  intro i c hw ha
  rcases i.bits_eq with hb | hb
  · rw [hb, decode_encode_beat hb ha]
  · rw [hb, decode_encode_header c hb hw]

/-- Settles O53: the fields a word is decoded to are the fields it is made of. -/
theorem encodeOfDecodeIsTheWord : Obligations.EncodeOfDecodeIsTheWord :=
  ⟨encode_decodeBeat, encode_decodeHeader⟩

/-- Settles O54: ten closed words, each decoded by evaluation. -/
theorem sampleWordsDecode : Obligations.SampleWordsDecode := by
  unfold Obligations.SampleWordsDecode
  decide
end

section
/-! Proofs: a word of the opcode table, placed before the next step, is run by it (30_encoding.md R60, R69,
42_framing.md R125; logs 7 and 8). -/

namespace Sys2Proof.Machine

/-! ### `DISPATCH` is the row of the header -/

/-- Every row of an unknown tag has the one meaning `UnknownRecordType` (43_record_dispatch.md R147). -/
theorem exec_decodeHeader_unknown {h : HeaderWord} (s : State) (hu : 5 < (headerTag h).toNat) :
    exec (decodeHeader h) s = .next (s.reportError .unknownRecordType) := by
  rw [decodeHeader_unknown hu]
  split_ifs <;> rfl

/-- `DISPATCH` runs the row its header decodes to (R140). -/
theorem dispatch_eq_exec (h : HeaderWord) (s : State) : dispatch h s = exec (decodeHeader h) s := by
  by_cases hu : 5 < (headerTag h).toNat
  · rw [dispatch_unknown s hu, exec_decodeHeader_unknown s hu]
  · rcases known_tag_cases _ (Nat.not_lt.mp hu) with e | e | e | e | e | e <;> simp [dispatch, decodeHeader, e, exec]

/-! ### A sound frame is dispatched -/

/-- `EVAL` of a line that passes checks 1 to 6 is the dispatch of its first four bytes (R132, R133). -/
theorem State.InLine.eval_eq_dispatch {s : State} {f : List Byte} {l b₁ b₂ tag e : Byte} {rest : List Byte}
    (h : s.InLine f) (hb : f = l :: b₁ :: b₂ :: tag :: rest) (hm : s.mok = true) (hf : malformed s = false)
    (hs : s.sum = 0) (hl : rest.length = l.toNat + 1) (he : rest.getLast? = some e) :
    eval s = dispatch (joinWord (joinHalf l b₁) (joinHalf b₂ tag)) (s.markDone.recordChecksums e e) := by
  subst hb
  have hc : s.cnt.toNat = l.toNat + 5 := by rw [← h.length]; simp [hl]
  have hlast : s.readBuf (s.cnt.toNat - 1) = .ok e := by
    rw [h.readBuf_eq, ← h.length, ← List.getLast?_eq_getElem?]
    simp [List.getLast?_cons, he]
  have hr : ∀ i b, (l :: b₁ :: b₂ :: tag :: rest)[i]? = some b → (s.markDone.recordChecksums e e).readBuf i = .ok b :=
    fun i _ hb => (State.readBuf_congr rfl rfl i).trans (h.readBuf_eq.mpr hb)
  rw [eval_eq, if_neg (by simp [hm]), if_neg (by simp [hf]), if_neg (by omega), withByte_ok hlast, evalChecksum_eq,
    if_neg (by simpa using hs), if_neg (by simp [hc]), evalHeader, withByte_ok (hr 0 l rfl),
    if_neg (by simp [hc, Config.minFrame]), withWord_ok (hr 0 l rfl) (hr 1 b₁ rfl) (hr 2 b₂ rfl) (hr 3 tag rfl)]

theorem State.frameBytes_markDone (s : State) : s.markDone.frameBytes = s.frameBytes := rfl

theorem State.frameBytes_recordChecksums (s : State) (c e : Byte) :
    (s.recordChecksums c e).frameBytes = s.frameBytes := rfl

/-! ### The placed line -/

theorem State.lineOf_concat (s : State) (bytes : List Byte) (b : Byte) :
    s.lineOf (bytes ++ [b]) = (s.lineOf bytes).appendByte b := List.foldl_concat ..

theorem State.lineOf_flags (s : State) (bytes : List Byte) :
    (s.lineOf bytes).phase = .body ∧ (s.lineOf bytes).mok = true ∧ (s.lineOf bytes).herr = false ∧
      (s.lineOf bytes).ovf = false := by
  induction bytes using List.reverseRecOn with
  | nil => exact ⟨rfl, rfl, rfl, rfl⟩
  | append_singleton bytes b ih => rw [State.lineOf_concat]; exact ih

theorem State.inLine_lineOf (s : State) {bytes : List Byte} (hl : bytes.length ≤ Config.maxFrame) :
    (s.lineOf bytes).InLine bytes := by
  induction bytes using List.reverseRecOn with
  | nil => exact State.inLine_startLine s false Config.marker
  | append_singleton bytes b ih =>
    rw [List.length_append, List.length_singleton] at hl
    have hin := ih (by omega)
    rw [State.lineOf_concat]
    exact hin.appendByte (by rw [← hin.length]; omega) b

/-- A sequence with its checksum appended sums to zero (41_checksum.md R116). -/
theorem byteSum_concat_ck (bs : List Byte) : byteSum (bs ++ [ck bs]) = 0 := by
  simp only [byteSum_append, byteSum_cons, byteSum_nil, ck]
  bv_omega

/-- A header and its longest payload leave room for the checksum. -/
theorem headerFrame_length_lt (h : HeaderWord) : (headerFrame h).length < Config.maxFrame := by
  have hlen : (headerFrame h).length = (headerLength h).toNat + 4 := by simp [headerFrame, headerBytes]
  have := (headerLength h).isLt
  rw [hlen, Config.maxFrame]
  omega

/-- The bytes of the placed line: the header's frame and its checksum (log 8). -/
def closedFrame (h : HeaderWord) : List Byte := headerFrame h ++ [ck (headerFrame h)]

theorem closedFrame_eq (h : HeaderWord) :
    closedFrame h = headerLength h :: halfHi (headerOffset h) :: halfLo (headerOffset h) :: headerTag h ::
      (List.replicate (headerLength h).toNat 0 ++ [ck (headerFrame h)]) := rfl

theorem closedFrame_length (h : HeaderWord) : (closedFrame h).length = (headerLength h).toNat + 5 := by
  simp [closedFrame_eq]

theorem State.inLine_closedFrame (s : State) (h : HeaderWord) : (s.lineOf (closedFrame h)).InLine (closedFrame h) :=
  s.inLine_lineOf (by rw [closedFrame, List.length_append]; exact headerFrame_length_lt h)

theorem State.lineOf_closedFrame_sum (s : State) (h : HeaderWord) : (s.lineOf (closedFrame h)).sum = 0 := by
  rw [(s.inLine_closedFrame h).sumEq, closedFrame, byteSum_concat_ck]

/-- A delivered beat is consumed by the next step, in the state it was delivered to. -/
theorem step_deliver (s : State) (w : BeatWord) : step (s.deliver w) = exec (decodeBeat s.beatContext w) s := rfl

/-- The step after a header is placed stores the checksum byte and evaluates the whole line. -/
theorem step_placeHeader (s : State) (h : HeaderWord) :
    step (s.placeHeader h) = andThen (eval (s.lineOf (closedFrame h))) fun v => .next v.endLine := by
  obtain ⟨hp, -⟩ := s.lineOf_flags (headerFrame h)
  have hroom : (s.lineOf (headerFrame h)).cnt.toNat < Config.maxFrame := by
    rw [← (s.inLine_lineOf (Nat.le_of_lt (headerFrame_length_lt h))).length]
    exact headerFrame_length_lt h
  rw [State.placeHeader, step_deliver, decodeBeat_beatWord, if_pos rfl, exec, execLast, beatEffect, hp]
  simp only [Bool.false_eq_true, if_false, if_neg (Nat.ne_of_lt hroom), storeByte_room _ hroom, andThen_next]
  rw [closedFrame, State.lineOf_concat]

/-- The state in which the placed line's header is dispatched: its checksums have been found equal. -/
def State.beforeDispatch (s : State) (h : HeaderWord) : State :=
  (s.lineOf (closedFrame h)).markDone.recordChecksums (ck (headerFrame h)) (ck (headerFrame h))

theorem State.beforeDispatch_frameBytes (s : State) (h : HeaderWord) :
    (s.beforeDispatch h).frameBytes = closedFrame h := by
  rw [State.beforeDispatch, State.frameBytes_recordChecksums, State.frameBytes_markDone, (s.inLine_closedFrame h).frame]

theorem State.beforeDispatch_cnt (s : State) (h : HeaderWord) :
    (s.beforeDispatch h).cnt.toNat = (headerLength h).toNat + 5 := by
  rw [State.beforeDispatch, State.recordChecksums_cnt, State.markDone_cnt, ← (s.inLine_closedFrame h).length,
    closedFrame_length]

theorem State.beforeDispatch_sum (s : State) (h : HeaderWord) : (s.beforeDispatch h).sum = 0 := by
  rw [State.beforeDispatch, State.recordChecksums_sum, State.markDone_sum, s.lineOf_closedFrame_sum]

theorem State.beforeDispatch_done (s : State) (h : HeaderWord) : (s.beforeDispatch h).done = true := rfl

theorem State.beforeDispatch_ckc_eq_cke (s : State) (h : HeaderWord) :
    (s.beforeDispatch h).ckc = (s.beforeDispatch h).cke := rfl

/-- The placed line's evaluation is the dispatch of its header. -/
theorem State.eval_closedFrame (s : State) (h : HeaderWord) :
    eval (s.lineOf (closedFrame h)) = dispatch h (s.beforeDispatch h) := by
  obtain ⟨-, hm, hh, ho⟩ := s.lineOf_flags (closedFrame h)
  have hf : malformed (s.lineOf (closedFrame h)) = false := by simp [malformed, hh, ho]
  rw [(s.inLine_closedFrame h).eval_eq_dispatch (closedFrame_eq h) hm hf (s.lineOf_closedFrame_sum h) (by simp)
    List.getLast?_concat, join_headerBytes, State.beforeDispatch]

/-! ### The context of a placed beat -/

theorem State.inBody_beatContext (s : State) : s.inBody.beatContext = .bodyRoom := by
  unfold State.inBody
  split
  next h =>
    obtain ⟨hp, hc⟩ := h
    simp [State.beatContext, hp, Nat.ne_of_lt hc]
  next => rfl

/-- A placed beat word is decoded as `decodeTableWord` reads it (log 7). -/
theorem State.decodeBeat_readyForBeat (s : State) (w : BeatWord) :
    decodeBeat (s.readyForBeat w).beatContext w = decodeBeat tableContext w := by
  unfold State.readyForBeat
  cases hl : beatLast w with
  | true => simp [decodeBeat, hl]
  | false => rw [if_neg (by simp), State.inBody_beatContext, tableContext]

theorem decodeTableWord_beat {n w : Nat} {i : Instr} (hn : n ≤ 16) (h : decodeTableWord n w = some i) :
    i = decodeBeat tableContext (BitVec.ofNat 10 w) := by
  rw [decodeTableWord, if_pos hn, decode, if_pos rfl] at h
  split at h
  · exact (Option.some.inj h).symm
  · simp [Decoded.toOption] at h

theorem decodeTableWord_header {n w : Nat} {i : Instr} (hn : 16 < n) (h : decodeTableWord n w = some i) :
    i = decodeHeader (BitVec.ofNat 32 w) := by
  rw [decodeTableWord, if_neg (by omega), decode, if_neg (by omega)] at h
  split at h
  · split at h
    · exact (Option.some.inj h).symm
    · simp [Decoded.toOption] at h
  · simp [Decoded.toOption] at h

end Sys2Proof.Machine

open Sys2Proof Sys2Proof.Machine

/-- Settles O11: a placed beat is decoded in the context of the table, and a placed header stands in a line that passes
every check up to `DISPATCH`. -/
theorem stepRunsThePlacedTableWord : Obligations.StepRunsThePlacedTableWord := by
  unfold Obligations.StepRunsThePlacedTableWord
  intro s n w i hi
  constructor
  · intro hn
    rw [State.withFetchWord, if_pos hn, step_deliver, State.decodeBeat_readyForBeat, decodeTableWord_beat hn hi]
  · intro hn
    rw [State.withFetchWord, if_neg (by omega), decodeTableWord_header hn hi]
    generalize BitVec.ofNat 32 w = h
    refine ⟨s.beforeDispatch h, ?_, ?_, ?_, ?_, ?_, ?_⟩
    · rw [State.beforeDispatch_frameBytes, closedFrame_eq]
      rfl
    · exact s.beforeDispatch_cnt h
    · exact s.beforeDispatch_sum h
    · exact s.beforeDispatch_done h
    · exact s.beforeDispatch_ckc_eq_cke h
    · rw [step_placeHeader, State.eval_closedFrame, dispatch_eq_exec]
      rfl
end

section
/-! Proofs: what a beat does, what `last` adds to it, and that every step completes (40_beat_ingest.md R90 to R97). -/

namespace Sys2Proof.Machine

/-! ### What a beat does -/

theorem markerOk_eq (d : Byte) : markerOk d = decide (d.toNat = 0x3A) :=
  decide_eq_decide.mpr BitVec.toNat_inj.symm

/-- The first beat of a line is a `MARK` (R91). -/
theorem beatEffect_idle {s : State} (x : Bool) (d : Byte) (hp : s.phase = .idle) :
    beatEffect x d s = .next (s.startLine x d) := by
  simp [beatEffect, hp]

/-- The effect of a beat is that of the row which `PHASE`, `hexerr` and `CNT` pick (R90). -/
theorem beatEffect_eq_exec (x : Bool) (d : Byte) (s : State) :
    beatEffect x d s =
      if s.phase = .idle then exec (.mark x d) s
      else if x = true then exec (.hexerr d) s
      else if s.cnt.toNat = 260 then exec (.byteOverflow d) s
      else exec (.byte d) s := by
  unfold beatEffect
  cases s.phase with
  | idle => rfl
  | body => rfl

/-- A beat word without `last` has the effect of its kind. -/
theorem exec_decodeBeat_beatWord (x : Bool) (d : Byte) (s : State) :
    exec (decodeBeat s.beatContext (beatWord false x d)) s = beatEffect x d s := by
  simp [exec_decodeBeat]

/-! ### What `last` adds -/

/-- With `last` the evaluation and the end of the line follow the beat's own effect (R96). -/
theorem exec_last_of {x : Bool} {d : Byte} {s t : State} (h : beatEffect x d s = .next t) :
    exec (.last x d) s = andThen (eval t) fun u => .next u.endLine := by
  simp [exec, execLast, h]

theorem andThen_next_right (o : StepOutcome) : andThen o .next = o := by
  cases o <;> rfl

/-- A step on a beat has the two parts of R90 in order: the effect of the beat's kind, then the end of line if the
beat has `last`. -/
theorem step_beat_eq_andThen {s : State} {w : BeatWord} {rest : List FeedEvent} (h : s.feed = .beat w :: rest) :
    step s = andThen (beatEffect (beatHexerr w) (beatData w) (s.withFeed rest)) fun t =>
      if beatLast w = true then andThen (eval t) fun u => .next u.endLine else .next t := by
  rw [step_beat h]
  cases beatLast w with
  | false => exact (andThen_next_right _).symm
  | true => rfl

/-! ### Every step completes -/

/-- Under the invariant a beat has its effect, and what that leaves can be evaluated (R97). -/
theorem State.Inv.beat_completes {s : State} (h : s.Inv) (x : Bool) (d : Byte) :
    ∃ t v, Machine.beatEffect x d s = .next t ∧ eval t = .next v := by
  obtain ⟨t, ht⟩ := beatEffect_completes x d h.cntLe
  obtain ⟨hinv, -⟩ := h.beatEffect ht
  obtain ⟨v, hv⟩ := hinv.eval_completes
  exact ⟨t, v, ht, hv⟩

theorem step_nil {s : State} (h : s.feed = []) : step s = .next s := by
  simp only [step, h]

theorem step_cons {s : State} {e : FeedEvent} {rest : List FeedEvent} (h : s.feed = e :: rest) :
    step s = runEvent e (s.withFeed rest) := by
  simp only [step, h]

end Sys2Proof.Machine

open Sys2Proof Sys2Proof.Machine

/-- Settles O8: the beat's own effect keeps the invariant, under which `EVAL` completes, and `EVAL` writes nothing but
`DONE` and the result registers. -/
theorem lastBeatCompletesTheLine : Obligations.LastBeatCompletesTheLine := by
  unfold Obligations.LastBeatCompletesTheLine
  intro s x d h
  obtain ⟨t, v, ht, hv⟩ := h.beat_completes x d
  obtain ⟨hdone, -, hm, hh, ho, hc, hs, hb, hf⟩ := eval_frame hv
  exact ⟨t, v, v.endLine, (exec_decodeBeat_beatWord x d s).trans ht, hv, rfl, execLast_of ht hv, rfl, hdone,
    eval_status_le (t := v) hv, hc, hs, hm, hh, ho, hb, hf⟩

/-- Settles O38: of the events a step can meet only a beat could stop it, and under the invariant none does. -/
theorem stepNeverStops : Obligations.StepNeverStops := by
  unfold Obligations.StepNeverStops
  intro s h
  cases hf : s.feed with
  | nil => exact ⟨s, step_nil hf, nofun⟩
  | cons e rest =>
    cases e with
    | reset => exact ⟨(s.withFeed rest).resetRegisters, step_cons hf, nofun⟩
    | beat w =>
      obtain ⟨t, v, ht, hv⟩ := (h.withFeed rest).beat_completes (beatHexerr w) (beatData w)
      rw [step_beat hf]
      cases hl : beatLast w with
      | false =>
        refine ⟨t, ht, ?_⟩
        rintro w' rest' ⟨⟩ hl'
        simp [hl] at hl'
      | true =>
        obtain ⟨hdone, -⟩ := eval_frame hv
        exact ⟨v.endLine, execLast_of ht hv, fun _ _ _ _ => ⟨rfl, hdone, eval_status_le (t := v) hv⟩⟩

/-- Settles O3: the state written out is that of `startLine`, which is the effect of any beat met in `IDLE`. -/
theorem markStartsLine : Obligations.MarkStartsLine := by
  unfold Obligations.MarkStartsLine
  intro s x d t
  have ht : s.startLine x d = t := by rw [State.startLine, markerOk_eq]
  rw [← ht]
  exact ⟨rfl, fun hp => exec_last_of (beatEffect_idle x d hp)⟩

/-- Settles O4: with room the byte is appended, and the one cell written is that at `CNT`. -/
theorem byteStoresAddsAndCounts : Obligations.ByteStoresAddsAndCounts := by
  unfold Obligations.ByteStoresAddsAndCounts
  intro s d hc
  exact ⟨s.appendByte d, storeByte_room d hc, Memory.read_write_same _ _ _, fun _ ha => Memory.read_write_other _ _ ha,
    BitVec.toNat_add _ _, State.appendByte_cnt_toNat d hc, rfl⟩

/-- Settles O5: the overflow row is `dropByte` alone. -/
theorem byteOverflowDropsTheByte : Obligations.ByteOverflowDropsTheByte := fun _ _ => rfl

/-- Settles O6: the row of a codec failure is `noteHexerr` alone. -/
theorem hexerrMarksTheLine : Obligations.HexerrMarksTheLine := fun _ _ => rfl

/-- Settles O7: the word without `last` has the effect that the beat with `last` begins with. -/
theorem lastEvaluatesAfterTheBeat : Obligations.LastEvaluatesAfterTheBeat := by
  unfold Obligations.LastEvaluatesAfterTheBeat
  intro s t x d h
  rw [exec_decodeBeat_beatWord] at h
  exact exec_last_of h

/-- Settles O9: the effect of the beat's kind, row by row, and the end of line after it. -/
theorem stepFollowsThePseudocode : Obligations.StepFollowsThePseudocode := by
  unfold Obligations.StepFollowsThePseudocode
  intro s w rest hf s₀
  rw [step_beat_eq_andThen hf, beatEffect_eq_exec]
  rfl

/-- Settles O10: a delivered beat is decoded before it is consumed, and the feed is no part of its context. -/
theorem stepRunsTheDecodedBeat : Obligations.StepRunsTheDecodedBeat :=
  ⟨fun _ _ _ hf => step_cons hf, fun _ hf => step_nil hf⟩
end

section
/-! Proofs: the checksum primitive, `VERIFY` and what it detects, `CKGEN` (41_checksum.md R110 to R117). -/

namespace Sys2Proof.Machine

/-! ### The checksum primitive -/

/-- The 8-bit sum is zero exactly when the sum of the numbers is a multiple of 256 (R111 item 1). -/
theorem byteSum_eq_zero_iff (bs : List Byte) : byteSum bs = 0 ↔ (bs.map BitVec.toNat).sum % 256 = 0 := by
  rw [← byteSum_toNat, ← BitVec.toNat_inj]
  rfl

/-- `ck bs` is the one byte that cancels the sum of `bs` (R110). -/
theorem byteSum_concat_eq_zero_iff (bs : List Byte) (v : Byte) : byteSum (bs ++ [v]) = 0 ↔ v = ck bs := by
  rw [byteSum_append, byteSum_cons, byteSum_nil, ck]
  constructor <;> intro h <;> bv_omega

theorem ck_eq_zero_of_byteSum {bs : List Byte} (h : byteSum bs = 0) : ck bs = 0 := by rw [ck, h]; rfl

theorem ck_append (bs cs : List Byte) : ck (bs ++ cs) = ck bs + ck cs := by
  simp only [ck, byteSum_append]
  bv_omega

/-! ### `VERIFY` -/

/-- On a clean line of at least one byte the evaluation reaches `VERIFY`, which records both checksums and ends the line
with `BadChecksum` exactly when `SUM` is not zero (R114, R115). -/
theorem eval_verify {s t : State} (h : eval s = .next t) (hm : s.mok = true) (hf : malformed s = false)
    (hc : 1 ≤ s.cnt.toNat) :
    ∃ e, s.readBuf (s.cnt.toNat - 1) = .ok e ∧ t.ckc = computedChecksum e s.sum ∧ t.cke = e ∧
      (t.status = 3 ↔ s.sum ≠ 0) ∧
      (s.sum ≠ 0 → t = (s.markDone.recordChecksums (computedChecksum e s.sum) e).reportError
        (.badChecksum (computedChecksum e s.sum) e)) := by
  rcases eval_next h with ⟨hm', -⟩ | ⟨-, hf', -⟩ | ⟨-, -, hc', -⟩ |
    ⟨e, _, -, -, -, he, rfl, ⟨hs, rfl⟩ | ⟨hs, _, rfl | rfl, rfl⟩ | ⟨hs, _, _, _, _, _, _, -, -, -, -, -, -, rfl⟩⟩
  · simp [hm] at hm'
  · simp [hf] at hf'
  · omega
  · exact ⟨e, he, rfl, rfl, iff_of_true rfl hs, fun _ => rfl⟩
  all_goals exact ⟨e, he, rfl, rfl, iff_of_false (by simp [ParseError.code]) (not_not_intro hs), fun hn => absurd hs hn⟩

/-! ### One changed byte -/

/-- Changing a beat but not its `last` leaves a line a line. -/
theorem isLine_set {ws : List BeatWord} {i : Nat} {w w' : BeatWord} (hw : ws[i]? = some w)
    (hl : beatLast w' = beatLast w) : isLine ws = true → isLine (ws.set i w') = true := by
  induction ws generalizing i with
  | nil => simp
  | cons v vs ih =>
    rw [isLine_cons]
    cases i with
    | zero =>
      obtain rfl : v = w := by simpa using hw
      rw [List.set_cons_zero, isLine_cons, hl]
      exact id
    | succ i =>
      rw [List.set_cons_succ, isLine_cons]
      rintro (⟨rfl, hv⟩ | ⟨hv, hvs⟩)
      · simp at hw
      · exact .inr ⟨hv, ih (by simpa using hw) hvs⟩

/-- A body without `hexerr` delivers the data of all its beats. -/
theorem bodyBytes_eq_map {ws : List BeatWord} (h : ws.any beatHexerr = false) : bodyBytes ws = ws.map beatData := by
  rw [List.any_eq_false] at h
  rw [bodyBytes, List.filter_eq_self.mpr (by simpa using h)]

/-- Changing a beat but not its `hexerr` keeps the hex verdict of the beats. -/
theorem any_beatHexerr_set {ws : List BeatWord} {i : Nat} {w w' : BeatWord} (hw : ws[i]? = some w)
    (hx : beatHexerr w' = beatHexerr w) : (ws.set i w').any beatHexerr = ws.any beatHexerr := by
  obtain ⟨hi, rfl⟩ := List.getElem?_eq_some_iff.mp hw
  have hmap : (ws.set i w').map beatHexerr = ws.map beatHexerr := by
    rw [List.map_set, hx, ← List.getElem_map (h := by simpa using hi) beatHexerr, List.set_getElem_self]
  simpa [-List.map_set] using congrArg (·.any id) hmap

/-- Changing the data of one beat of a body without `hexerr` changes the sum of what it delivers (R117). -/
theorem byteSum_bodyBytes_set_ne {ws : List BeatWord} {i : Nat} {w w' : BeatWord} (hn : ws.any beatHexerr = false)
    (hw : ws[i]? = some w) (hx : beatHexerr w' = beatHexerr w) (hd : beatData w' ≠ beatData w) :
    byteSum (bodyBytes (ws.set i w')) ≠ byteSum (bodyBytes ws) := by
  rw [bodyBytes_eq_map hn, bodyBytes_eq_map (by rw [any_beatHexerr_set hw hx, hn]), List.map_set]
  obtain ⟨hi, rfl⟩ := List.getElem?_eq_some_iff.mp hw
  exact byteSum_set_ne (by simpa using hi) (by simpa using hd.symm)

/-- An accepted line had the marker, no `hexerr`, at most 260 bytes, and these add up to zero. -/
theorem runLine_accepted {s t : State} {w : BeatWord} {ws : List BeatWord} (hp : s.phase = .idle)
    (hl : isLine (w :: ws) = true) (hr : runLine s (w :: ws) = .next t) (h0 : t.status = 0) :
    markerOk (beatData w) = true ∧ (w :: ws).any beatHexerr = false ∧ (bodyBytes ws).length ≤ 260 ∧
      byteSum (bodyBytes ws) = 0 := by
  obtain ⟨u, hrun, hin, hm, hh, ho, -⟩ := runLine_eval hp hl
  obtain ⟨v, hv, ht⟩ := andThen_eq_next (hrun ▸ hr)
  obtain rfl : v.endLine = t := by simpa using ht
  obtain ⟨hmok, hmal, hsum, -⟩ := eval_accepted hv h0
  rw [malformed, hh, ho, Bool.or_eq_false_iff, decide_eq_false_iff_not, Nat.not_lt] at hmal
  obtain ⟨hx, hlen⟩ := hmal
  rw [hin.sumEq, List.take_of_length_le hlen] at hsum
  exact ⟨hm ▸ hmok, hx, hlen, hsum⟩

/-- A line with the marker, no `hexerr` and at most 260 bytes that do not add up to zero is `BadChecksum`. -/
theorem runLine_badChecksum {s : State} {w : BeatWord} {ws : List BeatWord} (hp : s.phase = .idle)
    (hl : isLine (w :: ws) = true) (hm : markerOk (beatData w) = true) (hx : (w :: ws).any beatHexerr = false)
    (hlen : (bodyBytes ws).length ≤ 260) (hsum : byteSum (bodyBytes ws) ≠ 0) :
    ∃ t, runLine s (w :: ws) = .next t ∧ t.done = true ∧ t.status = 3 := by
  obtain ⟨u, hrun, hin, hmok, hh, ho, -⟩ := runLine_eval hp hl
  rw [List.take_of_length_le hlen] at hin
  obtain ⟨v, hv, -⟩ := hin.eval_result
  have hmal : malformed u = false := by
    rw [malformed, hh, hx, ho, decide_eq_false (Nat.not_lt.mpr hlen)]
    rfl
  have hcnt : 1 ≤ u.cnt.toNat := by
    rw [← hin.length, Nat.one_le_iff_ne_zero, Ne, List.length_eq_zero_iff]
    intro hnil
    exact hsum (by rw [hnil, byteSum_nil])
  obtain ⟨-, -, -, -, h3, -⟩ := eval_verify hv (hmok.trans hm) hmal hcnt
  exact ⟨v.endLine, by rw [hrun, hv, andThen_next], (eval_frame hv).1, h3.mpr (by rwa [hin.sumEq])⟩

/-! ### `CKGEN` -/

/-- `CKGEN` is the checksum of the bytes of a line in progress (R113). -/
theorem State.InLine.ckgen_eq_ck {s : State} {bs : List Byte} (h : s.InLine bs) : s.ckgen = ck bs := by
  rw [State.ckgen, h.sumEq, ck]

/-- The first beat of a line, without `last`, is consumed before the others. -/
theorem runLine_cons {s : State} {w : BeatWord} {ws : List BeatWord} (hp : s.phase = .idle) (hw : beatLast w = false) :
    runLine s (w :: ws) = runLine (s.startLine (beatHexerr w) (beatData w)) ws := by
  have hp' : ((s.withFeed (beatEvents (w :: ws))).withFeed (beatEvents ws)).phase = .idle := hp
  rw [runLine, List.length_cons, runSteps_succ, step_beat (w := w) (rest := beatEvents ws) rfl, hw,
    if_neg Bool.false_ne_true, beatEffect_idle _ _ hp', andThen_next]
  rfl

/-- With room for them, the bytes that are delivered to a line in progress are stored after those it has. -/
theorem State.InLine.runLine_bytes {s : State} {f : List Byte} (bs : List Byte) (h : s.InLine f) (hp : s.phase = .body)
    (ho : s.ovf = false) (hl : (f ++ bs).length ≤ 260) :
    ∃ u, runLine s (bs.map (beatWord false false)) = .next u ∧ u.InLine (f ++ bs) ∧ u.phase = .body ∧
      u.ovf = false := by
  have hf : f.length ≤ 260 := by rw [List.length_append] at hl; omega
  have hfed : (s.withFeed (beatEvents (bs.map (beatWord false false)))).InLine (f.take 260) := by
    rw [List.take_of_length_le hf]
    exact h.withFeed _
  obtain ⟨u, hu, hin, hup, -, -, huo, -⟩ :=
    runSteps_body (bs.map (beatWord false false)) (q := []) hfed hp
      (ho.trans (decide_eq_false (Nat.not_lt.mpr hf)).symm) (by simp) (List.append_nil _).symm
  rw [bodyBytes_map_beatWord] at hin huo
  rw [List.take_of_length_le hl] at hin
  exact ⟨u, hu, hin, hup, huo.trans (decide_eq_false (Nat.not_lt.mpr hl))⟩

end Sys2Proof.Machine

open Sys2Proof Sys2Proof.Machine

/-- Settles O33: the bytes of an accepted line add up to zero, so those of the changed line do not, and nothing that is
checked before the checksum has changed. -/
theorem oneChangedByteIsDetected : Obligations.OneChangedByteIsDetected := by
  unfold Obligations.OneChangedByteIsDetected
  intro s t ws i w w' hp hl hr h0 hi hw hlast hx hd
  obtain ⟨j, rfl⟩ := Nat.exists_eq_add_of_le' hi
  cases ws with
  | nil => simp [isLine] at hl
  | cons v vs =>
    rw [List.getElem?_cons_succ] at hw
    obtain ⟨hm, hn, hlen, hsum⟩ := runLine_accepted hp hl hr h0
    have hl' : isLine (v :: vs.set j w') = true := isLine_set (i := j + 1) hw hlast hl
    have hn' : (v :: vs.set j w').any beatHexerr = false := by
      rw [← hn, List.any_cons, List.any_cons, any_beatHexerr_set hw hx]
    obtain ⟨-, hbody⟩ := Bool.or_eq_false_iff.mp hn
    obtain ⟨-, hbody'⟩ := Bool.or_eq_false_iff.mp hn'
    have hlen' : (bodyBytes (vs.set j w')).length ≤ 260 := by
      rw [bodyBytes_eq_map hbody, List.length_map] at hlen
      rwa [bodyBytes_eq_map hbody', List.length_map, List.length_set]
    have hsum' : byteSum (bodyBytes (vs.set j w')) ≠ 0 := hsum ▸ byteSum_bodyBytes_set_ne hbody hw hx hd
    exact runLine_badChecksum hp hl' hm hn' hlen' hsum'

/-- Settles O24: `VERIFY` computes the checksum as the last byte less `SUM`, which under the invariant is the checksum
of the bytes before it. -/
theorem verifyComparesTheChecksums : Obligations.VerifyComparesTheChecksums := by
  unfold Obligations.VerifyComparesTheChecksums
  intro s h hm hh ho hc
  obtain ⟨t, ht⟩ := h.eval_completes
  obtain ⟨e, he, hckc, hcke, h3, hbad⟩ := eval_verify ht hm (by rw [malformed, hh, ho]; rfl) hc
  have hlast := h.readBuf_last.mp he
  have hck : computedChecksum e s.sum = ck s.frameBytes.dropLast := by rw [h.sumEq, computedChecksum_eq_ck hlast]
  have hzero := computedChecksum_eq_iff e s.sum
  rw [hck] at hckc hzero hbad
  exact ⟨e, t, hlast, ht, hcke, hckc, hck.symm, hzero, h3.trans hzero.not.symm, fun hne => hbad (hzero.not.mp hne)⟩

/-- Settles O30: the sum has these properties, and the checksum is its negation. -/
theorem ckIsAdditiveAndUnordered : Obligations.CkIsAdditiveAndUnordered := by
  unfold Obligations.CkIsAdditiveAndUnordered
  refine ⟨fun b c hp => ?_, fun b c => ?_, fun b x => ?_⟩
  · rw [ck, ck, byteSum_perm hp]
  · rw [ck_append, BitVec.toNat_add]
  · rw [ck_append, ck, ck, byteSum_cons, byteSum_nil]
    bv_omega

/-- Settles O32: the block stores the bytes as delivered, and with them `CKGEN`, which is their checksum. -/
theorem ckgenClosesTheFrame : Obligations.CkgenClosesTheFrame := by
  unfold Obligations.CkgenClosesTheFrame
  refine ⟨fun b => ⟨(byteSum_eq_zero_iff _).mp (byteSum_concat_ck b), ck_eq_zero_of_byteSum (byteSum_concat_ck b)⟩,
    fun s b hp hl => ?_⟩
  obtain ⟨t, ht, hin, htp, hto⟩ :=
    (State.inLine_startLine s false 0x3A).runLine_bytes b rfl rfl (by rw [List.nil_append]; omega)
  obtain ⟨u, hu, hin', -⟩ := hin.runLine_bytes [t.ckgen] htp hto (by simp; omega)
  rw [List.nil_append] at hin hin'
  have hck := hin.ckgen_eq_ck
  rw [hck] at hin'
  refine ⟨t, u, ?_, hck, hu, by rw [hin'.sumEq, byteSum_concat_ck], ?_⟩
  · rw [runLine_cons hp (beatLast_beatWord _ _ _), beatHexerr_beatWord, beatData_beatWord]
    exact ht
  · rw [hin'.ckgen_eq_ck, ck_eq_zero_of_byteSum (byteSum_concat_ck b)]

/-- Settles O29: the byte is appended to the sequence, and the sum of both is read modulo 256. -/
theorem ckIsTheOneZeroingByte : Obligations.CkIsTheOneZeroingByte := by
  unfold Obligations.CkIsTheOneZeroingByte
  refine ⟨rfl, fun b v => ?_⟩
  rw [← byteSum_concat_eq_zero_iff, byteSum_eq_zero_iff]
  simp

/-- Settles O31: `SUM` is the sum of the stored bytes, and `CKGEN` its negation. -/
theorem ckgenIsTheChecksumOfTheFrame : Obligations.CkgenIsTheChecksumOfTheFrame := by
  unfold Obligations.CkgenIsTheChecksumOfTheFrame
  intro s h
  refine ⟨h.ckgen_eq_ck, ?_⟩
  have := s.sum.isLt
  rw [s.ckgen_toNat]
  omega
end

section
/-! Proofs: the ordered checks of `EVAL`, from the marker to `DISPATCH` (42_framing.md R125 to R133). -/

namespace Sys2Proof.Machine

/-- Checks 1 and 2 passed are a line with no hex failure and no overflow (R127). -/
theorem malformed_eq_false {s : State} (hh : s.herr = false) (ho : s.ovf = false) : malformed s = false := by
  rw [malformed, hh, ho]
  rfl

/-- A clean line whose sum is zero passes checks 1 to 4: what is left are the length checks and `DISPATCH`, with the
last byte in both checksum registers (R129, R130). -/
theorem State.Inv.eval_eq_of_sum_zero {s : State} {e : Byte} (h : s.Inv) (hm : s.mok = true)
    (hf : malformed s = false) (hs : s.sum = 0) (he : s.frameBytes.getLast? = some e) :
    eval s =
      if s.frameBytes.length < 5 then .next ((s.markDone.recordChecksums e e).reportError .lengthMismatch)
      else evalHeader (s.markDone.recordChecksums e e) := by
  have hne : s.frameBytes ≠ [] := by
    intro h0
    simp [h0] at he
  have hc : s.cnt.toNat ≠ 0 := by rwa [← h.length_frameBytes, ne_eq, List.length_eq_zero_iff]
  rw [eval_eq, if_neg (by simp [hm]), if_neg (by simp [hf]), if_neg hc, withByte_ok (h.readBuf_last.mpr he),
    evalChecksum_eq, State.markDone_sum, if_neg (not_not_intro hs), State.markDone_cnt, h.length_frameBytes]

/-- Check 6 fails where the first byte is not the number of payload bytes (R131). -/
theorem evalHeader_misfits {s : State} {l : Byte} (h₀ : s.readBuf 0 = .ok l) (hl : s.cnt.toNat - 5 ≠ l.toNat) :
    evalHeader s = .next (s.reportError .lengthMismatch) := by
  rw [evalHeader, withByte_ok h₀]
  exact if_pos hl

/-- Check 6 passed, the first four bytes are dispatched as the header (R132, R133). -/
theorem evalHeader_fits {s : State} {l b₁ b₂ tag : Byte} (h₀ : s.readBuf 0 = .ok l) (h₁ : s.readBuf 1 = .ok b₁)
    (h₂ : s.readBuf 2 = .ok b₂) (h₃ : s.readBuf 3 = .ok tag) (hl : s.cnt.toNat - 5 = l.toNat) :
    evalHeader s = dispatch (joinWord (joinHalf l b₁) (joinHalf b₂ tag)) s := by
  rw [evalHeader, withByte_ok h₀, withWord_ok h₀ h₁ h₂ h₃]
  exact if_neg (not_not_intro hl)

/-- The header read as two halves is the header of its three fields (30_encoding.md R69). -/
theorem joinWord_eq_headerWord (l b₁ b₂ tag : Byte) :
    joinWord (joinHalf l b₁) (joinHalf b₂ tag) = headerWord l (b₁ ++ b₂) tag := by
  rw [← headerWord_fields (joinWord _ _), headerLength_join, headerOffset_join, headerTag_join, joinHalf]

end Sys2Proof.Machine

open Sys2Proof Sys2Proof.Machine

/-- Settles O28: a line with the invariant and no result yet has its frame in place and summed, so the checks over the
registers fail where those over the bytes do. -/
theorem evalComputesTheFrameResult : Obligations.EvalComputesTheFrameResult := by
  unfold Obligations.EvalComputesTheFrameResult
  intro s h hd
  exact (h.inLine hd).eval_result

/-- Settles O25: a short frame fails check 5, a longer one whose first byte is not its payload's length fails check 6. -/
theorem lengthIsCheckedAfterTheChecksum : Obligations.LengthIsCheckedAfterTheChecksum := by
  unfold Obligations.LengthIsCheckedAfterTheChecksum
  intro s l e h hm hh ho hs hfirst hlast hlen
  rw [h.eval_eq_of_sum_zero hm (malformed_eq_false hh ho) hs hlast]
  by_cases h5 : s.frameBytes.length < 5
  · exact if_pos h5
  · have h₀ : s.readBuf 0 = .ok l := h.readBuf_eq.mpr (List.head?_eq_getElem? ▸ hfirst)
    have hl : s.cnt.toNat - 5 ≠ l.toNat := by
      rw [← h.length_frameBytes]
      omega
    rw [if_neg h5]
    exact evalHeader_misfits ((State.readBuf_congr rfl rfl 0).trans h₀) hl

/-- Settles O26: the reads of the header are those of the frame's first four bytes, and `DISPATCH` runs the row they
decode to. -/
theorem soundFrameIsDispatched : Obligations.SoundFrameIsDispatched := by
  unfold Obligations.SoundFrameIsDispatched
  intro s l b₁ b₂ tag e rest h hm hh ho hs hbytes he hrest
  have hlen : s.frameBytes.length = l.toNat + 5 := by simp [hbytes, hrest]
  have hlast : s.frameBytes.getLast? = some e := by simp [hbytes, List.getLast?_cons, he]
  have hr : ∀ i b, (l :: b₁ :: b₂ :: tag :: rest)[i]? = some b → (s.markDone.recordChecksums e e).readBuf i = .ok b :=
    fun i b hb => (State.readBuf_congr rfl rfl i).trans (h.readBuf_eq.mpr (hbytes ▸ hb))
  have hl : (s.markDone.recordChecksums e e).cnt.toNat - 5 = l.toNat := by
    rw [State.recordChecksums_cnt, State.markDone_cnt, ← h.length_frameBytes, hlen, Nat.add_sub_cancel]
  rw [h.eval_eq_of_sum_zero hm (malformed_eq_false hh ho) hs hlast, if_neg (by omega),
    evalHeader_fits (hr 0 l rfl) (hr 1 b₁ rfl) (hr 2 b₂ rfl) (hr 3 tag rfl) hl, dispatch_eq_exec,
    joinWord_eq_headerWord]
  rfl

/-- Settles O27: an evaluation ends in the report of an error or of a record, and neither writes anything else. -/
theorem evalWritesOnlyTheResult : Obligations.EvalWritesOnlyTheResult := by
  unfold Obligations.EvalWritesOnlyTheResult
  intro s t h
  obtain ⟨_, _, ⟨_, rfl⟩ | ⟨_, _, _, _, _, rfl⟩⟩ := eval_reports h
  · exact ⟨rfl, rfl⟩
  · exact ⟨rfl, rfl⟩

/-- Settles O21: check 1 reads nothing but `MOK`. -/
theorem missingMarkerIsCheckedFirst : Obligations.MissingMarkerIsCheckedFirst := by
  unfold Obligations.MissingMarkerIsCheckedFirst
  intro s hm
  rw [eval_eq, if_pos hm]
  rfl

/-- Settles O22: check 2 comes after the marker and before `CNT` is read. -/
theorem malformedHexIsCheckedSecond : Obligations.MalformedHexIsCheckedSecond := by
  unfold Obligations.MalformedHexIsCheckedSecond
  intro s hm hbad
  have hf : malformed s = true := Bool.or_eq_true_iff.mpr hbad
  rw [eval_eq, if_neg (by simp [hm]), if_pos hf]
  rfl

/-- Settles O23: check 3 comes before any byte is read and before `CKC` and `CKE` are written. -/
theorem emptyFrameIsLengthMismatch : Obligations.EmptyFrameIsLengthMismatch := by
  unfold Obligations.EmptyFrameIsLengthMismatch
  intro s hm hh ho hc
  rw [eval_eq, if_neg (by simp [hm]), if_neg (by simp [malformed_eq_false hh ho]), if_pos hc]
  rfl
end

section
/-! Proofs: the record arms of `DISPATCH`, from the tag to the report (43_record_dispatch.md R140 to R148). -/

namespace Sys2Proof.Machine

/-! ### Widths and fields -/

theorem requireWidth_of_toNat_ne {w l : Byte} {s : State} {accept : StepOutcome} (h : l.toNat ≠ w.toNat) :
    requireWidth w l s accept = .next (s.reportError .lengthMismatch) :=
  requireWidth_misfits fun e => h (congrArg BitVec.toNat e)

/-- A 16-bit field as the number its two bytes spell (20_memory.md R45). -/
theorem joinHalf_eq_ofNat (hi lo : Byte) : joinHalf hi lo = BitVec.ofNat 16 (hi.toNat * 256 + lo.toNat) := by
  rw [← joinHalf_toNat, BitVec.ofNat_toNat, BitVec.setWidth_eq]

/-- The value of a 32-bit address is that of its four bytes, the first the most significant (20_memory.md R45). -/
theorem joinWord_joinHalf_toNat (b₀ b₁ b₂ b₃ : Byte) :
    (joinWord (joinHalf b₀ b₁) (joinHalf b₂ b₃)).toNat =
      b₀.toNat * 2 ^ 24 + b₁.toNat * 2 ^ 16 + b₂.toNat * 2 ^ 8 + b₃.toNat := by
  rw [joinWord_toNat, joinHalf_toNat, joinHalf_toNat]
  omega

/-- `EOF` has no payload (43_record_dispatch.md R142). -/
theorem widthFits_eof (n : Nat) : widthFits 0x01 n = true ↔ n = 0 := beq_iff_eq

/-- `ESA` and `ELA` have two payload bytes (R143, R145). -/
theorem widthFits_two {tag : Byte} (h : tag.toNat = 2 ∨ tag.toNat = 4) (n : Nat) : widthFits tag n = true ↔ n = 2 := by
  obtain e | e := h <;> rw [byte_eq_of_toNat e] <;> exact beq_iff_eq

/-- `SSA` and `SLA` have four payload bytes (R144, R146). -/
theorem widthFits_four {tag : Byte} (h : tag.toNat = 3 ∨ tag.toNat = 5) (n : Nat) :
    widthFits tag n = true ↔ n = 4 := by
  obtain e | e := h <;> rw [byte_eq_of_toNat e] <;> exact beq_iff_eq

/-! ### The arms with a width, at that width -/

/-- `EOF` with no payload is reported with its offset (R142). -/
theorem execEof_ok {l : Byte} {o : Half} {s : State} (hl : l.toNat = 0) :
    execEof l o s = .next (s.reportRecord 0x01 0 o 0 0) := by
  obtain rfl : l = 0 := byte_eq_of_toNat hl
  exact requireWidth_fits rfl

/-- The arm of a record with one 16-bit field, `ESA` and `ELA` alike: two payload bytes are reported big-endian
(R143, R145). -/
theorem requireWidth_withHalf_ok (tag : Byte) {l b₄ b₅ : Byte} {o : Half} {s : State} (hl : l.toNat = 2)
    (h₄ : s.readBuf 4 = .ok b₄) (h₅ : s.readBuf 5 = .ok b₅) :
    requireWidth 2 l s (withHalf s 4 fun v => .next (s.reportRecord tag l o v 0)) =
      .next (s.reportRecord tag 2 o (BitVec.ofNat 16 (b₄.toNat * 256 + b₅.toNat)) 0) := by
  obtain rfl : l = 2 := byte_eq_of_toNat hl
  rw [requireWidth_fits rfl, withHalf_ok h₄ h₅, joinHalf_eq_ofNat]

/-- Four payload bytes of `SSA` are reported as two big-endian fields (R144). -/
theorem execSsa_ok {l b₄ b₅ b₆ b₇ : Byte} {o : Half} {s : State} (hl : l.toNat = 4) (h₄ : s.readBuf 4 = .ok b₄)
    (h₅ : s.readBuf 5 = .ok b₅) (h₆ : s.readBuf 6 = .ok b₆) (h₇ : s.readBuf 7 = .ok b₇) :
    execSsa l o s = .next (s.reportRecord 0x03 4 o (BitVec.ofNat 16 (b₄.toNat * 256 + b₅.toNat))
      (BitVec.ofNat 16 (b₆.toNat * 256 + b₇.toNat))) := by
  obtain rfl : l = 4 := byte_eq_of_toNat hl
  rw [execSsa, requireWidth_fits rfl, withHalf_ok h₄ h₅, withHalf_ok h₆ h₇, joinHalf_eq_ofNat, joinHalf_eq_ofNat]

/-- Four payload bytes of `SLA` are one big-endian address, reported by its halves (R146). -/
theorem execSla_ok {l b₄ b₅ b₆ b₇ : Byte} {o : Half} {s : State} (hl : l.toNat = 4) (h₄ : s.readBuf 4 = .ok b₄)
    (h₅ : s.readBuf 5 = .ok b₅) (h₆ : s.readBuf 6 = .ok b₆) (h₇ : s.readBuf 7 = .ok b₇) :
    execSla l o s = .next (s.reportRecord 0x05 4 o (wordHi (joinWord (joinHalf b₄ b₅) (joinHalf b₆ b₇)))
      (wordLo (joinWord (joinHalf b₄ b₅) (joinHalf b₆ b₇)))) := by
  obtain rfl : l = 4 := byte_eq_of_toNat hl
  rw [execSla, requireWidth_fits rfl, withWord_ok h₄ h₅ h₆ h₇]

/-- The halves of an address in the field registers are that address in `ADDR32` (10_state.md R27). -/
theorem State.addr32_reportRecord_halves (s : State) (tag l : Byte) (o : Half) (a : Address32) :
    (s.reportRecord tag l o (wordHi a) (wordLo a)).addr32 = a := joinWord_halves a

end Sys2Proof.Machine

open Sys2Proof Sys2Proof.Machine

/-- Settles O19: the tag alone selects the arm, and a row's meaning is that arm. -/
theorem dispatchRunsTheDecodedRecord : Obligations.DispatchRunsTheDecodedRecord := by
  unfold Obligations.DispatchRunsTheDecodedRecord
  intro s h l o
  exact ⟨dispatch_eq_exec h s, dispatch_data s, dispatch_eof s, dispatch_esa s, dispatch_ssa s, dispatch_ela s,
    dispatch_sla s, dispatch_unknown s⟩

/-- Settles O20: every known arm but `DATA` starts with its width check, and `DATA` has none. -/
theorem wrongWidthIsLengthMismatch : Obligations.WrongWidthIsLengthMismatch := by
  unfold Obligations.WrongWidthIsLengthMismatch
  intro s h hk
  refine ⟨dispatch_wrongWidth s hk, fun e => ⟨_, dispatch_data s e, rfl⟩, fun e => ?_,
    fun e => widthFits_two e _, fun e => widthFits_four e _⟩
  rw [byte_eq_of_toNat e]
  exact widthFits_eof _

/-- Settles O12: `DATA` has no width check, and its payload window opens on the bytes after the header. -/
theorem dataAcceptsEveryLength : Obligations.DataAcceptsEveryLength := by
  unfold Obligations.DataAcceptsEveryLength
  intro s l o t
  exact ⟨rfl, fun i b hd hi hb => State.payload_of_read hd rfl hi (State.readBuf_eq_ok.mp hb).2⟩

/-- Settles O13: `EOF` is its width check. -/
theorem eofAcceptsOnlyAnEmptyPayload : Obligations.EofAcceptsOnlyAnEmptyPayload := by
  unfold Obligations.EofAcceptsOnlyAnEmptyPayload
  intro s l o
  exact ⟨execEof_ok, fun hl => requireWidth_of_toNat_ne hl⟩

/-- Settles O14: `ESA` is the arm of one 16-bit field with tag 0x02. -/
theorem esaReportsTheSegment : Obligations.EsaReportsTheSegment := by
  unfold Obligations.EsaReportsTheSegment
  intro s l o
  exact ⟨fun _ _ => requireWidth_withHalf_ok 0x02, fun hl => requireWidth_of_toNat_ne hl⟩

/-- Settles O15: past the width check `SSA` reads two 16-bit fields. -/
theorem ssaReportsSegmentAndPointer : Obligations.SsaReportsSegmentAndPointer := by
  unfold Obligations.SsaReportsSegmentAndPointer
  intro s l o
  exact ⟨fun _ _ _ _ => execSsa_ok, fun hl => requireWidth_of_toNat_ne hl⟩

/-- Settles O16: `ELA` is the arm of one 16-bit field with tag 0x04. -/
theorem elaReportsTheUpperHalf : Obligations.ElaReportsTheUpperHalf := by
  unfold Obligations.ElaReportsTheUpperHalf
  intro s l o
  exact ⟨fun _ _ => requireWidth_withHalf_ok 0x04, fun hl => requireWidth_of_toNat_ne hl⟩

/-- Settles O17: past the width check `SLA` reads one address, and the halves it reports are that address's. -/
theorem slaReportsTheAddress : Obligations.SlaReportsTheAddress := by
  unfold Obligations.SlaReportsTheAddress
  intro s l o
  refine ⟨fun b₄ b₅ b₆ b₇ hl h₄ h₅ h₆ h₇ => ?_, fun hl => requireWidth_of_toNat_ne hl⟩
  refine ⟨_, execSla_ok hl h₄ h₅ h₆ h₇, ?_, ?_, ?_, rfl⟩ <;> rw [State.addr32_reportRecord_halves]
  · exact joinWord_joinHalf_toNat b₄ b₅ b₆ b₇
  · exact wordHi_toNat _
  · exact wordLo_toNat _

/-- Settles O18: the six rows of an unknown tag have one meaning, and a tag above 5 decodes to one of them. -/
theorem unknownTagsAreRejected : Obligations.UnknownTagsAreRejected := by
  unfold Obligations.UnknownTagsAreRejected
  intro s l tag o t
  exact ⟨rfl, rfl, rfl, rfl, rfl, rfl, fun _ hu => exec_decodeHeader_unknown s hu⟩
end

section
/-! Proofs: a line that fails check 1 or check 2 reports that error and nothing else, whatever its body
(60_exceptions.md R161, R162). -/

namespace Sys2Proof.Machine

/-- A line whose evaluation ends before `VERIFY` in an error reports the error's code and nothing else: the line in
progress had no result yet (R166). -/
theorem runLine_report_of_reportError {s u : State} {ws : List BeatWord} (e : ParseError)
    (hrun : runLine s ws = andThen (eval u) fun v => .next v.endLine) (hn : u.noResult)
    (he : eval u = .next (u.markDone.reportError e)) :
    ∃ t, runLine s ws = .next t ∧ t.report = (true, e.code, 0, 0, 0, 0, 0, 0, 0) := by
  obtain ⟨-, hckc, hcke, -⟩ := hn
  refine ⟨(u.markDone.reportError e).endLine, by rw [hrun, he, andThen_next], ?_⟩
  calc (u.markDone.reportError e).endLine.report
      _ = (true, e.code, u.ckc, u.cke, 0, 0, 0, 0, 0) := rfl
      _ = (true, e.code, 0, 0, 0, 0, 0, 0, 0) := by rw [hckc, hcke]

/-- A line with a `hexerr`, or with more than 260 body beats, has what sets `HERR` or what sets `OVF`: without a
`hexerr` every body beat delivers a byte (R93, R94). -/
theorem any_beatHexerr_or_lt_length_bodyBytes {w : BeatWord} {body : List BeatWord}
    (h : (∃ v ∈ w :: body, beatHexerr v = true) ∨ 260 < body.length) :
    (w :: body).any beatHexerr = true ∨ 260 < (bodyBytes body).length := by
  obtain hex | hlong := h
  · exact .inl (List.any_eq_true.mpr hex)
  · cases hx : (w :: body).any beatHexerr with
    | true => exact .inl rfl
    | false =>
      obtain ⟨-, hbody⟩ := Bool.or_eq_false_iff.mp hx
      exact .inr (by rwa [bodyBytes_eq_map hbody, List.length_map])

end Sys2Proof.Machine

open Sys2Proof Sys2Proof.Machine

/-- Settles O47: the line reaches its evaluation with `MOK` 0, and check 1 reads nothing else. -/
theorem lineWithoutMarkerIsMissingMarker : Obligations.LineWithoutMarkerIsMissingMarker := by
  unfold Obligations.LineWithoutMarkerIsMissingMarker
  intro s w body hp hl hw
  obtain ⟨u, hrun, hin, hm, -⟩ := runLine_eval hp hl
  have hmok : u.mok = false := hm.trans (beq_eq_false_iff_ne.mpr hw)
  exact runLine_report_of_reportError .missingMarker hrun hin.noRes (missingMarkerIsCheckedFirst u hmok)

/-- Settles O48: the line reaches its evaluation with `MOK` 1 and with `HERR` or `OVF` set, wherever the cause stood,
and check 2 reads no byte. -/
theorem badHexAnywhereIsMalformedHex : Obligations.BadHexAnywhereIsMalformedHex := by
  unfold Obligations.BadHexAnywhereIsMalformedHex
  intro s w body hp hl hw hbad
  obtain ⟨u, hrun, hin, hm, hh, ho, -⟩ := runLine_eval hp hl
  have hmok : u.mok = true := hm.trans (beq_iff_eq.mpr hw)
  have hflag : u.herr = true ∨ u.ovf = true := by
    rw [hh, ho, decide_eq_true_iff]
    exact any_beatHexerr_or_lt_length_bodyBytes hbad
  exact runLine_report_of_reportError .malformedHex hrun hin.noRes (malformedHexIsCheckedSecond u hmok hflag)
end

section
/-! Proofs: a `RESET` in the middle of a line forgets the line (70_reset_and_hazards.md R190, R191). -/

namespace Sys2Proof.Machine

/-- The whole next state of a delivered `RESET` (R190), beside `step_beat` for a beat. -/
theorem step_reset {s : State} {rest : List FeedEvent} (h : s.feed = .reset :: rest) :
    step s = .next (s.withFeed rest).resetRegisters :=
  step_cons h

end Sys2Proof.Machine

open Sys2Proof Sys2Proof.Machine

/-- Settles O2: the step takes the `RESET` off the feed, and `Reset()` keeps of the state it meets the feed alone. -/
theorem resetEventForgetsTheLine : Obligations.ResetEventForgetsTheLine := by
  unfold Obligations.ResetEventForgetsTheLine
  intro s rest hf
  exact ⟨(s.withFeed rest).resetRegisters, step_reset hf, rfl⟩
end
